-- ==== Sys2Proof/Word.lean ====
section
/-! DEFINITION. The word types of B64CODEC. Every value of the block is unsigned (R9). -/

namespace Sys2Proof

/-- A register and a bus data word: 32 bits (R8, D3). -/
abbrev Word := BitVec 32

/-- A byte or a symbol, the content of one lane (R16, R17). -/
abbrev Byte := BitVec 8

/-- A SixBitGroup: one encoding unit, a value in 0..63 (R16). -/
abbrev Group := BitVec 6

/-- The 24 bits of a quantum: three bytes or four groups, first stream bit most significant (R17, R48). -/
abbrev Quantum := BitVec 24

end Sys2Proof
end

