-- ==== Sys2Proof/Syntax.lean ====
section
/-! DEFINITION. The command set (R66): one constructor per row of spec/opcode_table.json. -/

namespace Sys2Proof

/-- A command of the block, as a word written to CMD selects it (R62, R66). Operands other than the field F are
implicit: DIN and CTRL (R65). -/
inductive Instr where
  /-- NOP, OP 0x0 (R118). -/
  | nop
  /-- ENCQ N, OP 0x1: encode one quantum of `n` bytes (R64, R112). -/
  | encq (n : BitVec 2)
  /-- DECQ PC, OP 0x2: decode one quantum; `pc` is the explicit pad count, which only CTRL.NOPAD = 1 allows to be
  nonzero (R64, R114). -/
  | decq (pc : BitVec 2)
  /-- SYMOF, OP 0x3 (R83). -/
  | symof
  /-- GRPOF, OP 0x4 (R84). -/
  | grpof
  /-- VALID, OP 0x5 (R85). -/
  | valid
  /-- END, OP 0x6 (R119). -/
  | endStream
  /-- CLRERR, OP 0x7 (R120). -/
  | clrerr
  /-- SRST, OP 0x8 (R121). -/
  | srst
  /-- The table's row `(illegal)`: a word `w` that is no legal command word (R67). -/
  | illegal (w : Word)
deriving DecidableEq, Repr

end Sys2Proof
end

