-- ==== Sys2Proof/WellFormed.lean ====
section
/-! DEFINITION. Which commands have a word of their own in a given mode: R67 as a condition on the word's fields,
written apart from the decoder's chain of checks (R71). -/

namespace Sys2Proof

/-- R67, clause by clause: OP >= 0x9; RSV != 0; F != 0 and OP not in {ENCQ, DECQ}; OP = DECQ and F != 0 and
CTRL.NOPAD = 0. -/
def isIllegalWord (nopad : Bool) (w : Word) : Bool :=
  let op := (w.extractLsb' 0 4).toNat
  let f := (w.extractLsb' 4 2).toNat
  let rsv := (w.extractLsb' 6 26).toNat
  decide (9 ≤ op) || decide (rsv ≠ 0) || (decide (f ≠ 0) && decide (op ≠ 1) && decide (op ≠ 2))
    || (decide (op = 2) && decide (f ≠ 0) && !nopad)

/-- A command is well-formed in the mode CTRL.NOPAD = `nopad` when its word means it there: a nonzero pad count needs
NOPAD = 1, and the word of `illegal` must be an illegal one (R67). -/
def Instr.wellFormed (nopad : Bool) : Instr → Bool
  | .nop => true
  | .encq _ => true
  | .decq pc => nopad || decide (pc = 0#2)
  | .symof => true
  | .grpof => true
  | .valid => true
  | .endStream => true
  | .clrerr => true
  | .srst => true
  | .illegal w => isIllegalWord nopad w

end Sys2Proof
end

