-- ==== Sys2Proof/Decode.lean ====
section
/-! DEFINITION. Decoding a command word (R71), total over every 32-bit word, and the encoder written from the same
encodings (R63, R66, R74); and the opcode table's masks and matches. -/

namespace Sys2Proof

/-- The field OP, bits 3:0 (R63). -/
def opField (w : Word) : BitVec 4 := w.extractLsb' 0 4

/-- The field F, bits 5:4 (R63). -/
def fField (w : Word) : BitVec 2 := w.extractLsb' 4 2

/-- The field RSV, bits 31:6 (R63). -/
def rsvField (w : Word) : BitVec 26 := w.extractLsb' 6 26

/-- Why a word is no command, in the order of R71's checks. The block itself records only ILLEGAL_CMD (R131). -/
inductive IllegalCause where
  /-- RSV != 0. -/
  | reservedBits
  /-- OP >= 0x9. -/
  | reservedOpcode
  /-- F != 0 and OP not in {0x1, 0x2}. -/
  | misplacedField
  /-- OP = 0x2 and F != 0 and CTRL.NOPAD = 0. -/
  | padCountWithoutNopad
deriving DecidableEq, Repr

/-- The four checks of R71, first one first; `none` for a legal word. -/
def illegalCause (nopad : Bool) (w : Word) : Option IllegalCause :=
  if rsvField w ≠ 0#26 then some .reservedBits
  else if 0x9 ≤ (opField w).toNat then some .reservedOpcode
  else if fField w ≠ 0#2 ∧ opField w ≠ 0x1#4 ∧ opField w ≠ 0x2#4 then some .misplacedField
  else if opField w = 0x2#4 ∧ fField w ≠ 0#2 ∧ nopad = false then some .padCountWithoutNopad
  else none

/-- The case list of R71 for a word that passed its checks; an opcode past 0x8 does not reach it. -/
def decodeOp (w : Word) : Instr :=
  match (opField w).toNat with
  | 0x0 => .nop
  | 0x1 => .encq (fField w)
  | 0x2 => .decq (fField w)
  | 0x3 => .symof
  | 0x4 => .grpof
  | 0x5 => .valid
  | 0x6 => .endStream
  | 0x7 => .clrerr
  | 0x8 => .srst
  | _ => .illegal w

/-- `Decode(w, CTRL)` of R71, with `nopad` the bit CTRL.NOPAD, the only part of CTRL that decoding reads (R70). -/
def decode (nopad : Bool) (w : Word) : Instr :=
  match illegalCause nopad w with
  | some _ => .illegal w
  | none => decodeOp w

/-- The word with RSV = 0, field F = `f` and field OP = `op` (R63). -/
def commandWord (f : BitVec 2) (op : BitVec 4) : Word := 0#26 ++ f ++ op

/-- The command word of a command (R66, R74). -/
def encode : Instr → Word
  | .nop => commandWord 0 0x0
  | .encq n => commandWord n 0x1
  | .decq pc => commandWord pc 0x2
  | .symof => commandWord 0 0x3
  | .grpof => commandWord 0 0x4
  | .valid => commandWord 0 0x5
  | .endStream => commandWord 0 0x6
  | .clrerr => commandWord 0 0x7
  | .srst => commandWord 0 0x8
  | .illegal w => w

/-- A row of spec/opcode_table.json with a mask: a word fits the row when `w AND mask = pattern`. -/
structure OpcodeRow where
  mask : Word
  pattern : Word
deriving DecidableEq, Repr

/-- The row of spec/opcode_table.json that a command's mnemonic names; the row `(illegal)` has no mask. -/
def Instr.tableRow? : Instr → Option OpcodeRow
  | .nop => some ⟨0xFFFFFFFF#32, 0x00000000#32⟩
  | .encq _ => some ⟨0xFFFFFFCF#32, 0x00000001#32⟩
  | .decq _ => some ⟨0xFFFFFFCF#32, 0x00000002#32⟩
  | .symof => some ⟨0xFFFFFFFF#32, 0x00000003#32⟩
  | .grpof => some ⟨0xFFFFFFFF#32, 0x00000004#32⟩
  | .valid => some ⟨0xFFFFFFFF#32, 0x00000005#32⟩
  | .endStream => some ⟨0xFFFFFFFF#32, 0x00000006#32⟩
  | .clrerr => some ⟨0xFFFFFFFF#32, 0x00000007#32⟩
  | .srst => some ⟨0xFFFFFFFF#32, 0x00000008#32⟩
  | .illegal _ => none

/-- Whether a word fits a row of the table. -/
def OpcodeRow.fits (r : OpcodeRow) (w : Word) : Bool := decide (w &&& r.mask = r.pattern)

/-- The instruction of an opcode-table word. A command is one 32-bit word and stands in no memory (R62, R60), so the
word is taken as it is, its bits above `nbits` zero. The table gives no mode: it is read with CTRL.NOPAD = 1, in which
every row of it is legal (log entry 7). A word of more than 32 bits is no command. -/
def decodeTableWord (nbits w : Nat) : Option Instr :=
  if nbits ≤ 32 then some (decode true (BitVec.ofNat 32 (w % 2 ^ nbits))) else none

end Sys2Proof
end

