-- ==== Sys2Proof/Config.lean ====
section
/-! DEFINITION. The implementation parameters of R8: fixed for the machine, never changed by a step. -/

namespace Sys2Proof.Config

/-- `B64_BASE`, the address of the register window in the host's address space. OPEN (R8, D4): a constant
with no value that a proof could use. Host events carry the offset from it (log entry 2). -/
opaque b64Base : Nat

/-- `ID_VALUE`, the content of register ID (R8, R22, D6). -/
def idValue : Word := 0x42363401#32

/-- `INVALID_DEFAULT`, what the reverse LUT gives for each of the 192 bytes outside the alphabet (R8, R79, D8). -/
def invalidDefault : Group := 0#6

/-- `PAD_SYMBOL`, the pad byte `=` (R8, R80). -/
def padSymbol : Byte := 0x3D#8

/-- The only admitted access size in bytes (R51, D33). -/
def accessBytes : Nat := 4

end Sys2Proof.Config
end

