-- ==== Sys2Proof/Machine/State.lean ====
section
/-! DEFINITION. The state of the machine as plain data (R20), the host's side of the register port, the reasons a
step can stop, and the state after reset (R45). -/

namespace Sys2Proof.Machine

/-- The eight registers of the window (R21). -/
inductive Reg where
  | id | ctrl | status | din | dout | cmd | bytecnt | symcnt
deriving DecidableEq, Repr

/-- One access of the host. `off` is its address relative to `B64_BASE` (R13, log entry 2), `size` its size in bytes.
Any offset and size can be written down; R51 says which are admitted. -/
inductive HostAccess where
  /-- `MemRead(B64_BASE + off, size)`. -/
  | read (off : Int) (size : Nat)
  /-- `MemWrite(B64_BASE + off, size, data)`. -/
  | write (off : Int) (size : Nat) (data : Word)
deriving DecidableEq, Repr

/-- One thing that the outside does to the block (R146, R147). -/
inductive HostEvent where
  /-- An access that is performed (R57). -/
  | access (a : HostAccess)
  /-- A clock edge with `rst` = 1; the access presented with it, if there is one, is lost (R147). -/
  | rst (lost : Option HostAccess)
deriving DecidableEq, Repr

/-- The inputs of the block at one clock edge (R146); `addr` is the bus field addr[4:2], the word offset. -/
structure BusCycle where
  rst : Bool
  sel : Bool
  we : Bool
  addr : BitVec 3
  wdata : Word
deriving DecidableEq, Repr

/-- The error codes that a command can raise (R125); NONE is the absence of one. -/
inductive ErrCode where
  | illegalCmd | padRange | invalidSymbol | length
deriving DecidableEq, Repr

/-- The stored fields of STATUS (R20, R29). Bits 31:11 of the register are stored nowhere and read 0 (R36). -/
structure Status where
  /-- The sticky error flag (R30). -/
  err : Bool
  /-- The code of the first error since ERR was last 0 (R31). -/
  ecode : BitVec 3
  /-- The final quantum of the stream has been processed (R32). -/
  final : Bool
  /-- The pad count of the last ENCQ or DECQ that completed (R33). -/
  padcnt : BitVec 2
  /-- The number of valid output lanes of DOUT (R34). -/
  nout : BitVec 3
  /-- An error was raised while ERR was 1 (R35). -/
  eovf : Bool
deriving DecidableEq, Repr

/-- The state: the registers that R20 lists, and three fields of the model's own that hold the host's side of the
port (log entries 1, 4 and 5). -/
structure State where
  /-- CTRL: FAST is bit 0, NOPAD bit 1, ERRIE bit 2; three bits are stored (R24, R25). -/
  ctrl : BitVec 3
  /-- STATUS (R29). -/
  status : Status
  /-- DIN, the operand register (R37). -/
  din : Word
  /-- DOUT, the result register (R38). -/
  dout : Word
  /-- BYTECNT, the bytes of the current stream modulo 2^32 (R40). -/
  bytecnt : Word
  /-- SYMCNT, the symbols of the current stream modulo 2^32 (R41). -/
  symcnt : Word
  /-- The model's: whether a reset has happened; before the first one the registers are unspecified (R150). -/
  resetSeen : Bool
  /-- The model's: the host's events yet to be performed, the next one first (R57). -/
  pending : List HostEvent
  /-- The model's: the values that the host's reads returned, oldest first (R161). -/
  reads : List Word
deriving DecidableEq, Repr

/-- Why the machine is stuck. -/
inductive Fault where
  /-- Raised by `perform` for an access in a state whose STATUS holds a value that is never produced: ECODE 5 to 7,
  PADCNT 3 or NOUT 5 to 7 (I12: "if one is ever reached, the model is `stuck`"). Safe: no reachable state has one. -/
  | reservedStatusValue
deriving DecidableEq, Repr

/-- Why a step has no meaning. All but the first are raised by `perform` or `admission`. Safe: nothing is claimed
of a run that the spec gives no meaning. -/
inductive Refusal where
  /-- Raised by an arm of `exec` whose instruction has no meaning yet. Safe. -/
  | notModelled (mnemonic : String)
  /-- An access whose size is not 4 bytes (R51). Safe. -/
  | accessSize
  /-- An access at an offset that is not a multiple of 4 (R51). Safe. -/
  | accessMisaligned
  /-- An access outside the 32-byte window, the platform's to decode (R55, I8). Safe. -/
  | accessOutsideWindow
  /-- An access before the first reset (R150, I6). Safe. -/
  | accessBeforeReset
deriving DecidableEq, Repr

/-- STATUS after reset (R45). -/
def Status.reset : Status :=
  { err := false, ecode := 0#3, final := false, padcnt := 0#2, nout := 0#3, eovf := false }

/-- The machine right after reset (R45, R147), with no host event pending and no read returned (log entry 10). -/
def State.reset : State :=
  { ctrl := 0#3, status := Status.reset, din := 0#32, dout := 0#32, bytecnt := 0#32, symcnt := 0#32,
    resetSeen := true, pending := [], reads := [] }

end Sys2Proof.Machine
end

