-- ==== Sys2Proof/Machine/Flags.lean ====
section
/-! DEFINITION. The fields of STATUS: the register's read value, recording and clearing an error, what a result
writes, and the interrupt output. -/

namespace Sys2Proof.Machine

/-- The value that ECODE takes for a code (R125); 0 is NONE. -/
def ErrCode.bits : ErrCode → BitVec 3
  | .illegalCmd => 1#3
  | .padRange => 2#3
  | .invalidSymbol => 3#3
  | .length => 4#3

/-- The read value of STATUS: `{21'b0, EOVF, NOUT[2:0], PADCNT[1:0], FINAL, ECODE[2:0], ERR}` (R29). -/
def Status.word (st : Status) : Word :=
  0#21 ++ BitVec.ofBool st.eovf ++ st.nout ++ st.padcnt ++ BitVec.ofBool st.final ++ st.ecode ++ BitVec.ofBool st.err

/-- NOUT and PADCNT as a command that writes DOUT leaves them (R33, R34); a value is stored modulo the field's width
(R11). -/
def Status.withResult (nout padcnt : Nat) (st : Status) : Status :=
  { st with nout := BitVec.ofNat 3 nout, padcnt := BitVec.ofNat 2 padcnt }

/-- FINAL set to 1 when `isFinal`, otherwise as it was (R32, R109). -/
def Status.markFinal (isFinal : Bool) (st : Status) : Status :=
  { st with final := st.final || isFinal }

/-- The STATUS part of `raise E(code)` (R127): the first code is kept, a later error sets EOVF, and no result is
left valid. -/
def Status.recordError (code : ErrCode) (st : Status) : Status :=
  let recorded := if st.err then { st with eovf := true } else { st with err := true, ecode := code.bits }
  recorded.withResult 0 0

/-- The error record cleared (R120). -/
def Status.clearError (st : Status) : Status :=
  { st with err := false, ecode := 0#3, eovf := false }

/-- FINAL cleared (R119). -/
def Status.clearFinal (st : Status) : Status :=
  { st with final := false }

/-- A field holds a value that is never produced: ECODE 5 to 7, PADCNT 3, NOUT 5 to 7 (R29, I12). -/
def Status.reservedValue (st : Status) : Bool :=
  decide (5 ≤ st.ecode.toNat) || decide (st.padcnt.toNat = 3) || decide (5 ≤ st.nout.toNat)

/-- CTRL.FAST, bit 0 (R24). -/
def State.fast (s : State) : Bool := s.ctrl.getLsbD 0

/-- CTRL.NOPAD, bit 1 (R24). -/
def State.nopad (s : State) : Bool := s.ctrl.getLsbD 1

/-- CTRL.ERRIE, bit 2 (R24). -/
def State.errie (s : State) : Bool := s.ctrl.getLsbD 2

/-- The output `irq = STATUS.ERR AND CTRL.ERRIE`, a function of the state and no state itself (R42, R132). -/
def State.irq (s : State) : Bool := s.status.err && s.errie

end Sys2Proof.Machine
end

