-- ==== Sys2Proof/Machine/Ops.lean ====
section
/-! DEFINITION. The named operations over the registers that the meanings share, raising an error (R127) and
clearing one (R120) among them. -/

namespace Sys2Proof.Machine

/-- `raise E(code)`, the whole effect of a command that fails (R14, R127): the error recorded, no result left. -/
def raiseError (code : ErrCode) (s : State) : State :=
  { s with status := s.status.recordError code, dout := 0#32 }

/-- The return from an error (R120, R137): the record cleared, nothing restored. -/
def clearErrorRecord (s : State) : State :=
  { s with status := s.status.clearError }

/-- A result in DOUT with its NOUT and PADCNT (R38, R33, R34). -/
def writeResult (dout : Word) (nout padcnt : Nat) (s : State) : State :=
  { s with dout := dout, status := s.status.withResult nout padcnt }

/-- FINAL set when the quantum just done ends its stream (R108). -/
def markFinal (isFinal : Bool) (s : State) : State :=
  { s with status := s.status.markFinal isFinal }

/-- BYTECNT and SYMCNT advanced, modulo 2^32 (R40, R41). -/
def addCounts (bytes symbols : Nat) (s : State) : State :=
  { s with bytecnt := s.bytecnt + BitVec.ofNat 32 bytes, symcnt := s.symcnt + BitVec.ofNat 32 symbols }

/-- The stream ended: FINAL and both counters cleared (R119). -/
def closeStream (s : State) : State :=
  { s with status := s.status.clearFinal, bytecnt := 0#32, symcnt := 0#32 }

/-- Every piece of the block's state at its reset value (R45); the host's side of the port stays. -/
def resetRegisters (s : State) : State :=
  { s with
    ctrl := State.reset.ctrl, status := State.reset.status, din := State.reset.din, dout := State.reset.dout
    bytecnt := State.reset.bytecnt, symcnt := State.reset.symcnt }

/-- What a host read of a register returns (R50). -/
def readReg (r : Reg) (s : State) : Word :=
  match r with
  | .id => Config.idValue
  | .ctrl => s.ctrl.setWidth 32
  | .status => s.status.word
  | .din => s.din
  | .dout => s.dout
  | .cmd => 0#32
  | .bytecnt => s.bytecnt
  | .symcnt => s.symcnt

/-- What a host write does to a register other than the command port (R52): CTRL keeps bits 2:0, DIN keeps all, a
write to a read-only register does nothing. -/
def writeReg (r : Reg) (v : Word) (s : State) : State :=
  match r with
  | .ctrl => { s with ctrl := v.setWidth 3 }
  | .din => { s with din := v }
  | .id => s
  | .status => s
  | .dout => s
  | .cmd => s
  | .bytecnt => s
  | .symcnt => s

/-- A value returned to the host by a read (R161). -/
def returnToHost (v : Word) (s : State) : State :=
  { s with reads := s.reads ++ [v] }

end Sys2Proof.Machine
end

