-- ==== Sys2Proof/Machine/Operands.lean ====
section
/-! DEFINITION. Operand forms: the lanes of a quantum word and the parts of DIN that commands read (R47, R65). -/

namespace Sys2Proof.Machine

/-- `lane(w, i) = w[31-8*i : 24-8*i]` for `i` in 0..3 (R47). -/
def lane (w : Word) (i : Nat) : Byte := w.extractLsb' (24 - 8 * i) 8

/-- `{o_0, o_1, o_2, o_3}`: the word whose lanes 0 to 3 are the given bytes (R10, R47). -/
def ofLanes (o0 o1 o2 o3 : Byte) : Word := o0 ++ o1 ++ o2 ++ o3

/-- The group operand of SYMOF, DIN[5:0] (R65, R83). -/
def groupOperand (din : Word) : Group := din.extractLsb' 0 6

/-- The byte operand of GRPOF and VALID, DIN[7:0] (R65, R84, R85). -/
def byteOperand (din : Word) : Byte := din.extractLsb' 0 8

end Sys2Proof.Machine
end

