-- ==== Sys2Proof/Machine/Alphabet.lean ====
section
/-! DEFINITION. The alphabet table: the forward symbol LUT, the validity predicate and the reverse LUT, constant ROM
contents (R43, R75 to R81). The ASCII codes are the spec's (GK1). -/

namespace Sys2Proof.Machine

/-- The forward LUT by ranges (R76). -/
def symbolOf (g : Group) : Byte :=
  let n := g.toNat
  if n ≤ 25 then BitVec.ofNat 8 (0x41 + n)
  else if n ≤ 51 then BitVec.ofNat 8 (0x61 + (n - 26))
  else if n ≤ 61 then BitVec.ofNat 8 (0x30 + (n - 52))
  else if n = 62 then 0x2B#8
  else 0x2F#8

/-- `isValidSymbol(b)` (R77). -/
def isValidSymbol (b : Byte) : Bool :=
  let n := b.toNat
  (decide (0x41 ≤ n) && decide (n ≤ 0x5A)) || (decide (0x61 ≤ n) && decide (n ≤ 0x7A))
    || (decide (0x30 ≤ n) && decide (n ≤ 0x39)) || decide (n = 0x2B) || decide (n = 0x2F)

/-- The value part of the reverse LUT, total over all 256 bytes (R78, R79). -/
def groupOf (b : Byte) : Group :=
  let n := b.toNat
  if 0x41 ≤ n ∧ n ≤ 0x5A then BitVec.ofNat 6 (n - 0x41)
  else if 0x61 ≤ n ∧ n ≤ 0x7A then BitVec.ofNat 6 (n - 0x47)
  else if 0x30 ≤ n ∧ n ≤ 0x39 then BitVec.ofNat 6 (n + 0x04)
  else if n = 0x2B then 62#6
  else if n = 0x2F then 63#6
  else Config.invalidDefault

/-- The 7-bit ROM entry of the reverse LUT for a byte: the valid bit above the group (R78). -/
def reverseEntry (b : Byte) : BitVec 7 := BitVec.ofBool (isValidSymbol b) ++ groupOf b

/-- The ROM contents of the forward LUT, entry by entry as R76 tabulates them. -/
def forwardRom : List Byte :=
  [0x41#8, 0x42#8, 0x43#8, 0x44#8, 0x45#8, 0x46#8, 0x47#8, 0x48#8, 0x49#8, 0x4A#8, 0x4B#8, 0x4C#8, 0x4D#8] ++
  [0x4E#8, 0x4F#8, 0x50#8, 0x51#8, 0x52#8, 0x53#8, 0x54#8, 0x55#8, 0x56#8, 0x57#8, 0x58#8, 0x59#8, 0x5A#8] ++
  [0x61#8, 0x62#8, 0x63#8, 0x64#8, 0x65#8, 0x66#8, 0x67#8, 0x68#8, 0x69#8, 0x6A#8, 0x6B#8, 0x6C#8, 0x6D#8] ++
  [0x6E#8, 0x6F#8, 0x70#8, 0x71#8, 0x72#8, 0x73#8, 0x74#8, 0x75#8, 0x76#8, 0x77#8, 0x78#8, 0x79#8, 0x7A#8] ++
  [0x30#8, 0x31#8, 0x32#8, 0x33#8, 0x34#8, 0x35#8, 0x36#8, 0x37#8, 0x38#8, 0x39#8, 0x2B#8, 0x2F#8]

end Sys2Proof.Machine
end

