-- ==== Sys2Proof/Machine/Regroup.lean ====
section
/-! DEFINITION. The bit-regrouping transcoder: one 24-bit quantum from three bytes to four groups and back (R86 to
R98), and the source's whole-sequence function, against which R90 is stated. -/

namespace Sys2Proof.Machine

/-- The four groups of a quantum, in stream order. -/
structure Groups where
  g0 : Group
  g1 : Group
  g2 : Group
  g3 : Group
deriving DecidableEq, Repr

/-- The three bytes of a quantum, in stream order. -/
structure Bytes where
  c0 : Byte
  c1 : Byte
  c2 : Byte
deriving DecidableEq, Repr

/-- `MASK(N)` (R86). It is used for `n` in 0..3 only (log entry 11). -/
def byteMask (n : Nat) : Quantum :=
  match n with
  | 0 => 0x000000#24
  | 1 => 0xFF0000#24
  | 2 => 0xFFFF00#24
  | _ => 0xFFFFFF#24

/-- `Regroup8to6(b0, b1, b2, N)`: bytes at positions `n` and above are replaced by 0 first (R86). -/
def regroup8to6 (b0 b1 b2 : Byte) (n : Nat) : Groups :=
  let m : Quantum := (b0 ++ b1 ++ b2) &&& byteMask n
  { g0 := m.extractLsb' 18 6, g1 := m.extractLsb' 12 6, g2 := m.extractLsb' 6 6, g3 := m.extractLsb' 0 6 }

/-- `r(N) = (8*N + 5) / 6`, the number of payload groups (R87). -/
def payloadGroups (n : Nat) : Nat := (8 * n + 5) / 6

/-- `Regroup6to8(g0, g1, g2, g3, a)`: the bytes at positions `a` and above are 0 (R91). -/
def regroup6to8 (q : Groups) (a : Nat) : Bytes :=
  let t : Quantum := q.g0 ++ q.g1 ++ q.g2 ++ q.g3
  { c0 := if 0 < a then t.extractLsb' 16 8 else 0#8
    c1 := if 1 < a then t.extractLsb' 8 8 else 0#8
    c2 := if 2 < a then t.extractLsb' 0 8 else 0#8 }

/-- The bits of a value, most significant first: its stretch of the BitStream (R16, R48). -/
def bitsOf {k : Nat} (v : BitVec k) : List Bool := (List.range k).map fun i => v.getLsbD (k - 1 - i)

/-- A group from its bits, the first-consumed bit most significant; missing bits on the right are 0. -/
def groupOfBits (bits : List Bool) : Group :=
  BitVec.ofBool (bits.getD 0 false) ++ BitVec.ofBool (bits.getD 1 false) ++ BitVec.ofBool (bits.getD 2 false)
    ++ BitVec.ofBool (bits.getD 3 false) ++ BitVec.ofBool (bits.getD 4 false) ++ BitVec.ofBool (bits.getD 5 false)

/-- `count` consecutive 6-bit groups of a bit sequence, zero bits on its right (R86's quotation of §4.2). -/
def sliceGroups (count : Nat) (bits : List Bool) : List Group :=
  match count with
  | 0 => []
  | k + 1 => groupOfBits bits :: sliceGroups k (bits.drop 6)

/-- `bytesToGroups(xs)` of §4.2 as R86 quotes it: concatenate the bits of all bytes, pad with zero bits on the right,
slice into `(8*n + 5) / 6` groups. -/
def bytesToGroups (xs : List Byte) : List Group :=
  sliceGroups (payloadGroups xs.length) (xs.flatMap bitsOf)

/-- The payload groups of one quantum: the first `r(N)` of its four (R87). -/
def quantumPayload (b0 b1 b2 : Byte) (n : Nat) : List Group :=
  let q := regroup8to6 b0 b1 b2 n
  [q.g0, q.g1, q.g2, q.g3].take (payloadGroups n)

/-- The payload groups of a byte sequence split into full quanta and one partial quantum, in order (R90). -/
def quantaPayload (xs : List Byte) : List Group :=
  match xs with
  | b0 :: b1 :: b2 :: rest => quantumPayload b0 b1 b2 3 ++ quantaPayload rest
  | [b0, b1] => quantumPayload b0 b1 0#8 2
  | [b0] => quantumPayload b0 0#8 0#8 1
  | [] => []

end Sys2Proof.Machine
end

