-- ==== Sys2Proof/Machine/Padding.lean ====
section
/-! DEFINITION. The padding controller: pad counts, pad symbols, output sizes and the check of payload symbols
(R99 to R107). -/

namespace Sys2Proof.Machine

/-- `pc(N) = (3 - N) mod 3`, the pad count of an encode quantum of `n` bytes (R99). -/
def encodePadCount (n : Nat) : Nat := (3 - n) % 3

/-- The number of symbols an encode quantum of `n` bytes gives: pads are emitted unless NOPAD = 1 (R100, R101). -/
def encodedSymbols (nopad : Bool) (n : Nat) : Nat :=
  if nopad then payloadGroups n else payloadGroups n + encodePadCount n

/-- How many bytes at the head of a list are the pad byte. -/
def leadingPads (bs : List Byte) : Nat :=
  match bs with
  | [] => 0
  | b :: rest => if b = Config.padSymbol then leadingPads rest + 1 else 0

/-- `TrailingPads`: the scan from lane 3 down that stops at the first byte other than the pad byte (R103). -/
def trailingPads (din : Word) : Nat := leadingPads [lane din 3, lane din 2, lane din 1, lane din 0]

/-- The pad count of a decode quantum before its range check: scanned (NOPAD = 0, R103) or given (NOPAD = 1, R105). -/
def decodePadCount (nopad : Bool) (pc : BitVec 2) (din : Word) : Nat :=
  if nopad then pc.toNat else trailingPads din

/-- The number of payload symbols of a decode quantum with pad count `p`, `r = 4 - p` (R106). -/
def payloadSymbols (p : Nat) : Nat := 4 - p

/-- The number of bytes that a decode quantum with pad count `p` gives, `a = 3 - p` (R107). -/
def decodedBytes (p : Nat) : Nat := 3 - p

/-- The number of symbols that a decode quantum with pad count `p` adds to SYMCNT (R41, R114). -/
def consumedSymbols (nopad : Bool) (p : Nat) : Nat := if nopad then payloadSymbols p else 4

/-- Every symbol in payload positions 0 to `r - 1` passes `isValidSymbol` (R106, R129). -/
def payloadValid (r : Nat) (din : Word) : Bool := (List.range r).all fun i => isValidSymbol (lane din i)

end Sys2Proof.Machine
end

