-- ==== Sys2Proof/Machine/Codec.lean ====
section
/-! DEFINITION. The codec commands ENCQ and DECQ (R112, R114). -/

namespace Sys2Proof.Machine

/-- Output lane `i` of an encode quantum of `n` bytes: a payload symbol, a pad symbol, or 0x00 (R112). -/
def encodedLane (nopad : Bool) (n i : Nat) (g : Group) : Byte :=
  if i < payloadGroups n then symbolOf g
  else if i < payloadGroups n + encodePadCount n ∧ nopad = false then Config.padSymbol
  else 0x00#8

/-- The DOUT word of an encode quantum: the first `n` lanes of DIN regrouped, looked up and padded (R112). -/
def encodedWord (nopad : Bool) (n : Nat) (din : Word) : Word :=
  let q := regroup8to6 (lane din 0) (lane din 1) (lane din 2) n
  ofLanes (encodedLane nopad n 0 q.g0) (encodedLane nopad n 1 q.g1) (encodedLane nopad n 2 q.g2)
    (encodedLane nopad n 3 q.g3)

/-- What ENCQ does once its check has passed (R112). -/
def encodeQuantum (n : Nat) (s : State) : State :=
  addCounts n (encodedSymbols s.nopad n)
    (markFinal (decide (n = 1 ∨ n = 2))
      (writeResult (encodedWord s.nopad n s.din) (encodedSymbols s.nopad n) (encodePadCount n) s))

/-- ENCQ N (R112): LENGTH while FINAL = 1, otherwise the quantum encoded. -/
def execEncq (n : BitVec 2) (s : State) : Host.Outcome State Fault Refusal :=
  if s.status.final then .next (raiseError .length s) else .next (encodeQuantum n.toNat s)

/-- The group that position `i` of a decode quantum with `r` payload symbols gives the regrouper: pad positions give
0 (R93, R114). -/
def decodedGroup (r i : Nat) (din : Word) : Group := if i < r then groupOf (lane din i) else 0#6

/-- The DOUT word of a decode quantum with pad count `p`; lane 3 is 0x00 (R114). -/
def decodedWord (p : Nat) (din : Word) : Word :=
  let r := payloadSymbols p
  let c := regroup6to8
    { g0 := decodedGroup r 0 din, g1 := decodedGroup r 1 din, g2 := decodedGroup r 2 din, g3 := decodedGroup r 3 din }
    (decodedBytes p)
  ofLanes c.c0 c.c1 c.c2 0x00#8

/-- The error that DECQ raises, the first in the order of R134, or `none`: a pad count in the command word without
NOPAD (R67), LENGTH (R130), PAD_RANGE (R128), INVALID_SYMBOL (R129). -/
def decqError (pc : BitVec 2) (s : State) : Option ErrCode :=
  let p := decodePadCount s.nopad pc s.din
  if s.nopad = false ∧ pc ≠ 0#2 then some .illegalCmd
  else if s.status.final then some .length
  else if 3 ≤ p then some .padRange
  else if s.fast = false ∧ payloadValid (payloadSymbols p) s.din = false then some .invalidSymbol
  else none

/-- What DECQ does with pad count `p` once its checks have passed (R114). -/
def decodeQuantum (p : Nat) (s : State) : State :=
  addCounts (decodedBytes p) (consumedSymbols s.nopad p)
    (markFinal (decide (0 < p)) (writeResult (decodedWord p s.din) (decodedBytes p) p s))

/-- DECQ [PC] (R114): the first error that applies, otherwise the quantum decoded. -/
def execDecq (pc : BitVec 2) (s : State) : Host.Outcome State Fault Refusal :=
  match decqError pc s with
  | some code => .next (raiseError code s)
  | none => .next (decodeQuantum (decodePadCount s.nopad pc s.din) s)

end Sys2Proof.Machine
end

