-- ==== Sys2Proof/Machine/Control.lean ====
section
/-! DEFINITION. The control commands NOP, END, CLRERR and SRST (R118 to R121), and what an illegal word does (R67). -/

namespace Sys2Proof.Machine

/-- NOP: no state changes (R118). -/
def execNop (s : State) : Host.Outcome State Fault Refusal := .next s

/-- END: FINAL, BYTECNT and SYMCNT cleared (R119). -/
def execEndStream (s : State) : Host.Outcome State Fault Refusal := .next (closeStream s)

/-- CLRERR: ERR, ECODE and EOVF cleared (R120). -/
def execClrerr (s : State) : Host.Outcome State Fault Refusal := .next (clearErrorRecord s)

/-- SRST: every piece of the block's state at its reset value (R121, R148). -/
def execSrst (s : State) : Host.Outcome State Fault Refusal := .next (resetRegisters s)

/-- An illegal command word raises ILLEGAL_CMD and does nothing else (R67, R72); which word it was is not recorded
(R131). -/
def execIllegal (_w : Word) (s : State) : Host.Outcome State Fault Refusal := .next (raiseError .illegalCmd s)

end Sys2Proof.Machine
end

