-- ==== Sys2Proof/Machine/Lookup.lean ====
section
/-! DEFINITION. The lookup commands SYMOF, GRPOF and VALID (R83 to R85): each reads DIN, writes DOUT, sets NOUT to 1
and PADCNT to 0, and touches nothing else. -/

namespace Sys2Proof.Machine

/-- SYMOF: `DOUT <- zext_32(symbolOf(DIN[5:0]))` (R83). -/
def execSymof (s : State) : Host.Outcome State Fault Refusal :=
  .next (writeResult ((symbolOf (groupOperand s.din)).setWidth 32) 1 0 s)

/-- GRPOF: `DOUT <- zext_32({isValidSymbol(b), 0b00, groupOf(b)})` with b = DIN[7:0] (R84). -/
def execGrpof (s : State) : Host.Outcome State Fault Refusal :=
  let b := byteOperand s.din
  .next (writeResult ((BitVec.ofBool (isValidSymbol b) ++ 0#2 ++ groupOf b).setWidth 32) 1 0 s)

/-- VALID: `DOUT <- isValidSymbol(DIN[7:0]) ? 1 : 0` (R85). -/
def execValid (s : State) : Host.Outcome State Fault Refusal :=
  .next (writeResult (if isValidSymbol (byteOperand s.din) then 1#32 else 0#32) 1 0 s)

end Sys2Proof.Machine
end

