-- ==== Sys2Proof/Machine/Dispatch.lean ====
section
/-! DEFINITION. One arm per command (R66): the command's meaning. -/

namespace Sys2Proof.Machine

/-- The effect of a command, its word decoded (R72). -/
def exec (i : Instr) (s : State) : Host.Outcome State Fault Refusal :=
  match i with
  | .nop => Sys2Proof.Machine.execNop s
  | .encq n => Sys2Proof.Machine.execEncq n s
  | .decq pc => Sys2Proof.Machine.execDecq pc s
  | .symof => Sys2Proof.Machine.execSymof s
  | .grpof => Sys2Proof.Machine.execGrpof s
  | .valid => Sys2Proof.Machine.execValid s
  | .endStream => Sys2Proof.Machine.execEndStream s
  | .clrerr => Sys2Proof.Machine.execClrerr s
  | .srst => Sys2Proof.Machine.execSrst s
  | .illegal w => Sys2Proof.Machine.execIllegal w s

end Sys2Proof.Machine
end

