-- ==== Sys2Proof/Machine/Bus.lean ====
section
/-! DEFINITION. The register port: the window's layout (R21), which accesses are admitted (R51), what a read, a write
and a reset do (R50, R52, R147), the signal-level inputs (R146), and the host's notation (R13, R73, R74). -/

namespace Sys2Proof.Machine

/-- The offset of a register from `B64_BASE` (R21). -/
def Reg.offset : Reg → Int
  | .id => 0x00
  | .ctrl => 0x04
  | .status => 0x08
  | .din => 0x0C
  | .dout => 0x10
  | .cmd => 0x14
  | .bytecnt => 0x18
  | .symcnt => 0x1C

/-- The register at an offset of the window, if there is one (R21). -/
def regAt (off : Int) : Option Reg :=
  if off = 0x00 then some .id
  else if off = 0x04 then some .ctrl
  else if off = 0x08 then some .status
  else if off = 0x0C then some .din
  else if off = 0x10 then some .dout
  else if off = 0x14 then some .cmd
  else if off = 0x18 then some .bytecnt
  else if off = 0x1C then some .symcnt
  else none

/-- Whether an access is admitted, and to which register (R51, R55): 32-bit, at a multiple of 4, inside the window.
Which refusal is named when several apply is log entry 8's choice. -/
def admission (off : Int) (size : Nat) : Except Refusal Reg :=
  if size ≠ Config.accessBytes then .error .accessSize
  else if off % 4 ≠ 0 then .error .accessMisaligned
  else
    match regAt off with
    | some r => .ok r
    | none => .error .accessOutsideWindow

/-- `Execute(w)`: a write of `w` to CMD performs the command it encodes, in the mode CTRL.NOPAD selects (R72). -/
def executeWord (w : Word) (s : State) : Host.Outcome State Fault Refusal :=
  exec (decode s.nopad w) s

/-- An access performed whole (R54): a read returns a value and changes nothing else (R50, R53); a write to CMD
executes a command (R39), another write follows R52. -/
def performAccess (a : HostAccess) (s : State) : Host.Outcome State Fault Refusal :=
  match a with
  | .read off size =>
    match admission off size with
    | .error why => .refused why
    | .ok r => .next (returnToHost (readReg r s) s)
  | .write off size data =>
    match admission off size with
    | .error why => .refused why
    | .ok .cmd => executeWord data s
    | .ok r => .next (writeReg r data s)

/-- A clock edge with `rst` = 1 (R147): every piece of state takes its reset value, and no access is performed. -/
def hardReset (s : State) : State :=
  { resetRegisters s with resetSeen := true }

/-- One host event. Before the first reset an access has no meaning (R150); in a state whose STATUS holds a value that
is never produced, the machine is stuck (I12). -/
def perform (e : HostEvent) (s : State) : Host.Outcome State Fault Refusal :=
  match e with
  | .rst _ => .next (hardReset s)
  | .access a =>
    if s.resetSeen = false then .refused .accessBeforeReset
    else if s.status.reservedValue then .fault .reservedStatusValue
    else performAccess a s

/-- The host event that one clock edge's inputs are (R146): with `sel` = 0 and `rst` = 0 there is none, and with
`rst` = 1 an access that is presented is lost (R147). -/
def BusCycle.event? (c : BusCycle) : Option HostEvent :=
  let off : Int := 4 * c.addr.toNat
  let presented : Option HostAccess :=
    if c.sel then some (if c.we then .write off 4 c.wdata else .read off 4) else none
  if c.rst then some (.rst presented) else presented.map .access

/-- `MemRead(addr, size)` at an absolute address of the host (R13). -/
def memRead (addr size : Nat) : HostEvent := .access (.read ((addr : Int) - (Config.b64Base : Int)) size)

/-- `MemWrite(addr, size, v)` at an absolute address of the host (R13). -/
def memWrite (addr size : Nat) (v : Word) : HostEvent :=
  .access (.write ((addr : Int) - (Config.b64Base : Int)) size v)

/-- The line `RD <reg>` (R73). -/
def rd (r : Reg) : HostEvent := .access (.read r.offset 4)

/-- The line `WR <reg>, <imm32>` (R73). -/
def wr (r : Reg) (v : Word) : HostEvent := .access (.write r.offset 4 v)

/-- A command pseudo-instruction: one `WR CMD` of its word (R74). -/
def command (i : Instr) : HostEvent := wr .cmd (encode i)

/-- The pseudo-instruction `LDQ "s"`: lane i of the word is the ASCII code of the i-th of one to four characters, and
unused lanes are 0 (R74). -/
def ldq (cs : List Char) : HostEvent :=
  let code (i : Nat) : Byte := BitVec.ofNat 8 ((cs[i]?).elim 0 Char.toNat)
  wr .din (ofLanes (code 0) (code 1) (code 2) (code 3))

end Sys2Proof.Machine
end

