-- ==== Sys2Proof/Machine/Step.lean ====
section
/-! DEFINITION. One step: the next host event performed (R57). -/

namespace Sys2Proof.Machine

/-- One step performs the next pending host event, complete before the next (R57). With none pending no access is
presented and the state stays, for the block takes no step of its own (R6, log entry 3). -/
def step (s : State) : Host.Outcome State Fault Refusal :=
  match s.pending with
  | [] => .next s
  | e :: rest => perform e { s with pending := rest }

/-- A command word placed where the next step takes it from: its write to CMD at the head of the pending host events
(R39, R60, log entry 1). -/
def State.withFetchWord (s : State) (nbits w : Nat) : State :=
  { s with pending := wr .cmd (BitVec.ofNat 32 (w % 2 ^ nbits)) :: s.pending }

end Sys2Proof.Machine
end

