-- ==== Sys2Proof/Machine/HostLoops.lean ====
section
/-! DEFINITION. The host's loops over a text, which the spec gives as its reference algorithm (R116, R117, R157): the
host issues accesses and sees nothing but what its reads return. -/

namespace Sys2Proof.Machine

/-- Host events performed one after the other (R57); `none` when one of them stops the machine. -/
def issue (es : List HostEvent) (s : State) : Option State :=
  match es with
  | [] => some s
  | e :: rest =>
    match perform e s with
    | .next t => issue rest t
    | .fault _ => none
    | .refused _ => none

/-- The first NOUT lanes of a DOUT word, NOUT taken from a STATUS word (R34, R116). -/
def validLanes (status dout : Word) : List Byte :=
  [lane dout 0, lane dout 1, lane dout 2, lane dout 3].take (status.extractLsb' 7 3).toNat

/-- A value that a read returned to the host, and the block's state after that read. -/
structure HostRead where
  value : Word
  after : State
deriving DecidableEq, Repr

/-- Host events performed, then one register read: what the read returned (R57, R161). -/
def issueRead (es : List HostEvent) (r : Reg) (s : State) : Option HostRead :=
  match issue (es ++ [rd r]) s with
  | none => none
  | some t => t.reads.getLast?.map fun v => { value := v, after := t }

/-- DIN written, the command written, then a register read (R116, R117, R155). -/
def hostCommand (din : Word) (i : Instr) (r : Reg) (s : State) : Option HostRead :=
  issueRead [wr .din din, command i] r s

/-- One quantum of the encode loop (R116): DOUT is read, and its first NOUT lanes are taken, NOUT from a read of STATUS
after it (95_test_vectors.md P1). -/
def encodeOne (din : Word) (n : BitVec 2) (s : State) : Option (List Byte × State) :=
  match hostCommand din (.encq n) .dout s with
  | none => none
  | some d => (issueRead [] .status d.after).map fun st => (validLanes st.value d.value, st.after)

/-- `b64encode(xs)` (R116): full quanta, then one of one or two bytes; `fill` stands in the lanes of missing bytes and
in lane 3, which may hold any value. The option NOPAD in CTRL decides whether the text is padded (R18). -/
def hostEncode (fill : Byte) (xs : List Byte) (s : State) : Option (List Byte × State) :=
  match xs with
  | [] => some ([], s)
  | [b0] => encodeOne (ofLanes b0 fill fill fill) 1#2 s
  | [b0, b1] => encodeOne (ofLanes b0 b1 fill fill) 2#2 s
  | b0 :: b1 :: b2 :: rest =>
    match encodeOne (ofLanes b0 b1 b2 fill) 3#2 s with
    | none => none
    | some q => (hostEncode fill rest q.2).map fun p => (q.1 ++ p.1, p.2)

/-- How a decode loop ends. -/
inductive DecodeResult where
  /-- The decoded bytes, and the block's state. -/
  | done (out : List Byte) (after : State)
  /-- The host's length check failed before it issued a command (R157). -/
  | lengthMismatch
  /-- STATUS.ERR = 1 after a quantum; the loop stops there, its last access the read of STATUS (R117). -/
  | blockError (after : State)
  /-- An access stopped the machine. -/
  | stopped
deriving DecidableEq, Repr

/-- Bytes put before those of a result. -/
def DecodeResult.prepend (bs : List Byte) : DecodeResult → DecodeResult
  | .done out after => .done (bs ++ out) after
  | .lengthMismatch => .lengthMismatch
  | .blockError after => .blockError after
  | .stopped => .stopped

/-- One quantum of a decode loop, and `next` for the rest (R117): when STATUS.ERR = 1 the host stops there and reads no
DOUT; otherwise it reads DOUT and takes its first NOUT lanes. -/
def decodeOne (din : Word) (pc : BitVec 2) (s : State) (next : State → DecodeResult) : DecodeResult :=
  match hostCommand din (.decq pc) .status s with
  | none => .stopped
  | some st =>
    if st.value.getLsbD 0 then .blockError st.after
    else
      match issueRead [] .dout st.after with
      | none => .stopped
      | some d => (next d.after).prepend (validLanes st.value d.value)

/-- The loop over the quanta of a text whose final fragment, if it has one, is given with an explicit pad count: DECQ 0
for each full quantum, DECQ p for a final one of `4 - p` symbols (R117, option (b)). For a text of full quanta only, it is
the loop of option (a). -/
def decodeLoop (fill : Byte) (text : List Byte) (s : State) : DecodeResult :=
  match text with
  | [] => .done [] s
  | [s0] => decodeOne (ofLanes s0 fill fill fill) 3#2 s (.done [])
  | [s0, s1] => decodeOne (ofLanes s0 s1 fill fill) 2#2 s (.done [])
  | [s0, s1, s2] => decodeOne (ofLanes s0 s1 s2 fill) 1#2 s (.done [])
  | s0 :: s1 :: s2 :: s3 :: rest => decodeOne (ofLanes s0 s1 s2 s3) 0#2 s (decodeLoop fill rest)

/-- `b64decode(text)` of a text with its `=` symbols, for NOPAD = 0: the host rejects a length that is no multiple of 4
before it issues a command (R117, R157). -/
def hostDecodePadded (text : List Byte) (s : State) : DecodeResult :=
  if text.length % 4 ≠ 0 then .lengthMismatch else decodeLoop 0#8 text s

/-- The decode of a stripped text, for NOPAD = 1 (R18, R117); `fill` stands in the lanes that are not read. -/
def hostDecodeStripped (fill : Byte) (text : List Byte) (s : State) : DecodeResult := decodeLoop fill text s

end Sys2Proof.Machine
end

