-- ==== Sys2Proof/Safety.lean ====
section
/-! DEFINITION. What claims call a legal state and a clean step: the values STATUS is said to take (R29, R31), the
balance of the counters, and a step that records no error (R138, R161). -/

namespace Sys2Proof

open Sys2Proof.Machine

/-- STATUS as the spec says it always is: ECODE 0 to 4, PADCNT 0 to 2, NOUT 0 to 4 (R29); ECODE = 0 exactly when
ERR = 0 (R31); EOVF only beside ERR (R35, R120). -/
def StatusLegal (st : Status) : Prop :=
  st.ecode.toNat ≤ 4 ∧ st.padcnt.toNat ≤ 2 ∧ st.nout.toNat ≤ 4 ∧ (st.ecode = 0#3 ↔ st.err = false) ∧
    (st.eovf = true → st.err = true)

/-- No valid lane, no leftover: with NOUT = 0, DOUT and PADCNT are 0 (R112 for N = 0, R127, R45). -/
def NoStaleResult (s : State) : Prop :=
  s.status.nout = 0#3 → s.dout = 0#32 ∧ s.status.padcnt = 0#2

/-- A state that a run from reset can be in, as far as STATUS and DOUT say. -/
def Legal (s : State) : Prop :=
  s.resetSeen = true ∧ StatusLegal s.status ∧ NoStaleResult s

/-- An access has a meaning: a reset has happened (R150) and STATUS holds no value that is never produced (I12). Every
legal state is ready. -/
def Ready (s : State) : Prop :=
  s.resetSeen = true ∧ s.status.reservedValue = false

/-- The counters agree with the stream. While no partial quantum has been processed every quantum had 3 bytes and 4
symbols, so `4*BYTECNT = 3*SYMCNT`; after one with pad count p the excess `3*SYMCNT - 4*BYTECNT` is 4p (pads counted)
or p (pads not counted), with p in 1, 2; all modulo 2^32 (R40, R41, R108, R109). -/
def CountersBalanced (s : State) : Prop :=
  (s.status.final = false → 4#32 * s.bytecnt = 3#32 * s.symcnt) ∧
  (s.status.final = true →
    3#32 * s.symcnt - 4#32 * s.bytecnt = 1#32 ∨ 3#32 * s.symcnt - 4#32 * s.bytecnt = 2#32 ∨
      3#32 * s.symcnt - 4#32 * s.bytecnt = 4#32 ∨ 3#32 * s.symcnt - 4#32 * s.bytecnt = 8#32)

/-- The error record is as it was (R138, R161). With EOVF = 1 already, an error leaves no further trace in it. -/
def RecordsNoError (s t : State) : Prop :=
  t.status.err = s.status.err ∧ t.status.ecode = s.status.ecode ∧ t.status.eovf = s.status.eovf

end Sys2Proof
end

