-- ==== Sys2Proof/Certificates/Slice0/Obligations.lean ====
section
/-! DEFINITION. The statements for the provers, each from a rule of spec/ that its docstring names. `raiseError` in a
statement is `raise E(code)`, which `RaiseErrorRecordsOnlyTheError` states field by field. -/

open Sys2Proof Sys2Proof.Machine

/-! ## The alphabet and the lookup commands -/

/-- R83. SYMOF looks up DIN[5:0] and changes DOUT, NOUT and PADCNT only; its word; its corner values. -/
def Obligations.SymofLooksUpTheSymbol : Prop :=
  (∀ nopad : Bool, decode nopad 0x00000003#32 = .symof) ∧
  (∀ s : State, exec .symof s = .next { s with
    dout := (symbolOf (s.din.extractLsb' 0 6)).setWidth 32
    status := { s.status with nout := 1#3, padcnt := 0#2 } }) ∧
  symbolOf 0#6 = 0x41#8 ∧ symbolOf 63#6 = 0x2F#8 ∧ symbolOf 25#6 = 0x5A#8

/-- R84. GRPOF gives the tagged group of DIN[7:0]: bit 8 the valid bit, bits 5:0 the group, every other bit 0; it
changes DOUT, NOUT and PADCNT only; its word; its corner values. -/
def Obligations.GrpofGivesTheTaggedGroup : Prop :=
  (∀ nopad : Bool, decode nopad 0x00000004#32 = .grpof) ∧
  (∀ s : State, ∃ d : Word,
    exec .grpof s = .next { s with dout := d, status := { s.status with nout := 1#3, padcnt := 0#2 } } ∧
    d.getLsbD 8 = isValidSymbol (s.din.extractLsb' 0 8) ∧ d.extractLsb' 0 6 = groupOf (s.din.extractLsb' 0 8) ∧
    d.extractLsb' 6 2 = 0#2 ∧ d.extractLsb' 9 23 = 0#23 ∧
    (s.din.extractLsb' 0 8 = 0x41#8 → d = 0x00000100#32) ∧ (s.din.extractLsb' 0 8 = 0x3D#8 → d = 0x00000000#32) ∧
    (s.din.extractLsb' 0 8 = 0x21#8 → d = 0x00000000#32) ∧ (s.din.extractLsb' 0 8 = 0xC1#8 → d = 0x00000000#32) ∧
    (s.din.extractLsb' 0 8 = 0x2F#8 → d = 0x0000013F#32) ∧ (s.din.extractLsb' 0 8 = 0x67#8 → d = 0x00000120#32))

/-- R85. VALID tests DIN[7:0] and changes DOUT, NOUT and PADCNT only; its word; its corner values. -/
def Obligations.ValidTestsTheByte : Prop :=
  (∀ nopad : Bool, decode nopad 0x00000005#32 = .valid) ∧
  (∀ s : State, exec .valid s = .next { s with
    dout := if isValidSymbol (s.din.extractLsb' 0 8) then 0x00000001#32 else 0x00000000#32
    status := { s.status with nout := 1#3, padcnt := 0#2 } }) ∧
  (∀ b ∈ [0x2B#8, 0x2F#8, 0x30#8, 0x39#8, 0x41#8, 0x5A#8, 0x61#8, 0x7A#8], isValidSymbol b = true) ∧
  (∀ b ∈ [0x2A#8, 0x2C#8, 0x2E#8, 0x3A#8, 0x3D#8, 0x40#8, 0x5B#8, 0x60#8, 0x7B#8, 0x00#8, 0xFF#8],
    isValidSymbol b = false)

/-- R76. The forward LUT has the 64 entries of the table, and they are the five ranges. -/
def Obligations.ForwardLutIsTheRomTable : Prop :=
  forwardRom.length = 64 ∧ (∀ g : Group, forwardRom[g.toNat]? = some (symbolOf g)) ∧
  ∀ g : Group,
    (g ≤ 25#6 → symbolOf g = 0x41#8 + g.setWidth 8) ∧
    (26#6 ≤ g ∧ g ≤ 51#6 → symbolOf g = 0x61#8 + (g.setWidth 8 - 26#8)) ∧
    (52#6 ≤ g ∧ g ≤ 61#6 → symbolOf g = 0x30#8 + (g.setWidth 8 - 52#8)) ∧
    (g = 62#6 → symbolOf g = 0x2B#8) ∧ (g = 63#6 → symbolOf g = 0x2F#8)

/-- R77. The validity predicate is the ranges and two bytes; it holds for exactly 64 bytes, and neither for the pad
byte nor for a byte 0x80 to 0xFF. -/
def Obligations.ValidityPredicateHoldsForTheAlphabet : Prop :=
  (∀ b : Byte, isValidSymbol b = true ↔
    (0x41#8 ≤ b ∧ b ≤ 0x5A#8) ∨ (0x61#8 ≤ b ∧ b ≤ 0x7A#8) ∨ (0x30#8 ≤ b ∧ b ≤ 0x39#8) ∨ b = 0x2B#8 ∨ b = 0x2F#8) ∧
  ((List.range 256).filter fun n => isValidSymbol (BitVec.ofNat 8 n)).length = 64 ∧
  isValidSymbol 0x3D#8 = false ∧ ∀ b : Byte, 0x80#8 ≤ b → isValidSymbol b = false

/-- R78, R79. The reverse LUT: the group of each valid byte by its range, 0 for each of the 192 others, and the 7-bit
ROM entry made of the valid bit and the group. -/
def Obligations.ReverseLutGivesGroupsAndZero : Prop :=
  (∀ b : Byte,
    (0x41#8 ≤ b ∧ b ≤ 0x5A#8 → (groupOf b).setWidth 8 = b - 0x41#8) ∧
    (0x61#8 ≤ b ∧ b ≤ 0x7A#8 → (groupOf b).setWidth 8 = b - 0x47#8) ∧
    (0x30#8 ≤ b ∧ b ≤ 0x39#8 → (groupOf b).setWidth 8 = b + 0x04#8) ∧
    (b = 0x2B#8 → groupOf b = 62#6) ∧ (b = 0x2F#8 → groupOf b = 63#6) ∧
    (isValidSymbol b = false → groupOf b = 0#6) ∧
    (reverseEntry b).getLsbD 6 = isValidSymbol b ∧ (reverseEntry b).extractLsb' 0 6 = groupOf b) ∧
  ((List.range 256).filter fun n => !isValidSymbol (BitVec.ofNat 8 n)).length = 192 ∧ groupOf 0x3D#8 = 0#6

/-- R81. The two LUTs are inverses on the alphabet. -/
def Obligations.LutsAreInverseOnTheAlphabet : Prop :=
  (∀ g : Group, groupOf (symbolOf g) = g ∧ isValidSymbol (symbolOf g) = true) ∧
  ∀ b : Byte, isValidSymbol b = true → symbolOf (groupOf b) = b

/-- R82 (an inference of the spec's). The forward LUT is injective, and its image is the valid bytes. -/
def Obligations.ForwardLutImageIsTheValidBytes : Prop :=
  (∀ g h : Group, symbolOf g = symbolOf h → g = h) ∧
  ∀ b : Byte, isValidSymbol b = true ↔ ∃ g : Group, symbolOf g = b

/-! ## The transcoder -/

/-- R86. The groups of an encode quantum are the slices of the masked quantum, and their bits in order are the bits of
the first N bytes followed by zeros. -/
def Obligations.RegroupToGroupsSlicesTheBitStream : Prop :=
  ∀ (b0 b1 b2 : Byte) (n : Nat), n ≤ 3 →
    let mask : Quantum := if n = 0 then 0x000000#24 else if n = 1 then 0xFF0000#24 else if n = 2 then 0xFFFF00#24 else 0xFFFFFF#24
    let m : Quantum := (b0 ++ b1 ++ b2) &&& mask
    let q := regroup8to6 b0 b1 b2 n
    q = { g0 := m.extractLsb' 18 6, g1 := m.extractLsb' 12 6, g2 := m.extractLsb' 6 6, g3 := m.extractLsb' 0 6 } ∧
    bitsOf q.g0 ++ bitsOf q.g1 ++ bitsOf q.g2 ++ bitsOf q.g3 =
      (bitsOf b0 ++ bitsOf b1 ++ bitsOf b2).take (8 * n) ++ List.replicate (24 - 8 * n) false

/-- R91. The bytes of a decode quantum, a of them output, are the first 8a bits of the four groups, then zeros. -/
def Obligations.RegroupToBytesSlicesTheBitStream : Prop :=
  ∀ (q : Groups) (a : Nat), 1 ≤ a → a ≤ 3 →
    let t : Quantum := q.g0 ++ q.g1 ++ q.g2 ++ q.g3
    let c := regroup6to8 q a
    c = { c0 := t.extractLsb' 16 8, c1 := if 1 < a then t.extractLsb' 8 8 else 0x00#8,
          c2 := if 2 < a then t.extractLsb' 0 8 else 0x00#8 } ∧
    bitsOf c.c0 ++ bitsOf c.c1 ++ bitsOf c.c2 =
      (bitsOf q.g0 ++ bitsOf q.g1 ++ bitsOf q.g2 ++ bitsOf q.g3).take (8 * a) ++ List.replicate (24 - 8 * a) false

/-- R87 to R89 (R88 is an inference of the spec's). How many groups are payload, and that the last payload group of a
partial quantum has zero padding in its low bits. -/
def Obligations.PartialQuantumIsPaddedWithZeroBits : Prop :=
  payloadGroups 0 = 0 ∧ payloadGroups 1 = 2 ∧ payloadGroups 2 = 3 ∧ payloadGroups 3 = 4 ∧
  ∀ b0 b1 b2 : Byte,
    (regroup8to6 b0 b1 b2 1).g1.extractLsb' 0 4 = 0#4 ∧ (regroup8to6 b0 b1 b2 2).g2.extractLsb' 0 2 = 0#2 ∧
    quantumPayload b0 b1 b2 0 = []

/-- R90 (an inference of the spec's). Quantum by quantum, the payload groups of a byte sequence are the groups that
the source's whole-sequence function gives, and there are `(8*n + 5) / 6` of them. -/
def Obligations.QuantaRegroupAsTheWholeSequence : Prop :=
  ∀ xs : List Byte, quantaPayload xs = bytesToGroups xs ∧ (quantaPayload xs).length = (8 * xs.length + 5) / 6

/-- R96 (an inference of the spec's). Regrouping a quantum of N bytes and back gives its bytes, the groups at the pad
positions replaced by 0. -/
def Obligations.RegroupingRoundTripsAQuantum : Prop :=
  ∀ (b0 b1 b2 : Byte) (n : Nat), 1 ≤ n → n ≤ 3 →
    let q := regroup8to6 b0 b1 b2 n
    let c := regroup6to8 { q with
      g2 := if 2 < payloadGroups n then q.g2 else 0#6, g3 := if 3 < payloadGroups n then q.g3 else 0#6 } n
    c = { c0 := b0, c1 := if 1 < n then b1 else 0x00#8, c2 := if 2 < n then b2 else 0x00#8 }

/-! ## ENCQ -/

/-- R112. ENCQ N: its words; LENGTH while FINAL = 1; otherwise the four output lanes, NOUT, PADCNT, FINAL and the
counters as the rule's pseudocode gives them, and nothing else. -/
def Obligations.EncqEncodesTheQuantum : Prop :=
  (∀ (nopad : Bool) (n : BitVec 2), decode nopad (0x00000001#32 + 16#32 * n.setWidth 32) = .encq n) ∧
  ∀ (s : State) (n : BitVec 2),
    let N := n.toNat
    let q := regroup8to6 (lane s.din 0) (lane s.din 1) (lane s.din 2) N
    let r := (8 * N + 5) / 6
    let p := (3 - N) % 3
    let o (i : Nat) (g : Group) : Byte :=
      if i < r then symbolOf g else if i < r + p ∧ s.nopad = false then 0x3D#8 else 0x00#8
    let k := if s.nopad = false then r + p else r
    (s.status.final = true → exec (.encq n) s = .next (raiseError .length s)) ∧
    (s.status.final = false → exec (.encq n) s = .next { s with
      dout := o 0 q.g0 ++ o 1 q.g1 ++ o 2 q.g2 ++ o 3 q.g3
      status := { s.status with
        nout := BitVec.ofNat 3 k, padcnt := BitVec.ofNat 2 p, final := decide (N = 1 ∨ N = 2) }
      bytecnt := s.bytecnt + BitVec.ofNat 32 N
      symcnt := s.symcnt + BitVec.ofNat 32 k })

/-- R113 (an inference of the spec's). The result of ENCQ row by row, the groups cut from DIN's bits directly: for
each N and NOPAD the lanes of DOUT, NOUT, PADCNT and FINAL. -/
def Obligations.EncqResultsRowByRow : Prop :=
  ∀ s : State, s.status.final = false →
    let b0 : Byte := s.din.extractLsb' 24 8
    let b1 : Byte := s.din.extractLsb' 16 8
    let b2 : Byte := s.din.extractLsb' 8 8
    let g0 : Group := b0.extractLsb' 2 6
    let row (n : BitVec 2) (o0 o1 o2 o3 : Byte) (nout : BitVec 3) (padcnt : BitVec 2) (final : Bool) : Prop :=
      ∃ t, exec (.encq n) s = .next t ∧ lane t.dout 0 = o0 ∧ lane t.dout 1 = o1 ∧ lane t.dout 2 = o2 ∧
        lane t.dout 3 = o3 ∧ t.status.nout = nout ∧ t.status.padcnt = padcnt ∧ t.status.final = final
    row 0#2 0x00#8 0x00#8 0x00#8 0x00#8 0#3 0#2 false ∧
    (s.nopad = false →
      row 1#2 (symbolOf g0) (symbolOf (b0.extractLsb' 0 2 ++ 0#4)) 0x3D#8 0x3D#8 4#3 2#2 true ∧
      row 2#2 (symbolOf g0) (symbolOf (b0.extractLsb' 0 2 ++ b1.extractLsb' 4 4))
        (symbolOf (b1.extractLsb' 0 4 ++ 0#2)) 0x3D#8 4#3 1#2 true) ∧
    (s.nopad = true →
      row 1#2 (symbolOf g0) (symbolOf (b0.extractLsb' 0 2 ++ 0#4)) 0x00#8 0x00#8 2#3 2#2 true ∧
      row 2#2 (symbolOf g0) (symbolOf (b0.extractLsb' 0 2 ++ b1.extractLsb' 4 4))
        (symbolOf (b1.extractLsb' 0 4 ++ 0#2)) 0x00#8 3#3 1#2 true) ∧
    row 3#2 (symbolOf g0) (symbolOf (b0.extractLsb' 0 2 ++ b1.extractLsb' 4 4))
      (symbolOf (b1.extractLsb' 0 4 ++ b2.extractLsb' 6 2)) (symbolOf (b2.extractLsb' 0 6)) 4#3 0#2 false

/-! ## DECQ -/

/-- R103. With NOPAD = 0 the pad count is the number of trailing `=` symbols, scanned from lane 3 down to the first
other byte. -/
def Obligations.TrailingPadsScanFromTheEnd : Prop :=
  (∀ (pc : BitVec 2) (din : Word), decodePadCount false pc din = trailingPads din) ∧
  ∀ s0 s1 s2 s3 : Byte,
    (s3 ≠ 0x3D#8 → trailingPads (s0 ++ s1 ++ s2 ++ s3) = 0) ∧
    (s3 = 0x3D#8 → s2 ≠ 0x3D#8 → trailingPads (s0 ++ s1 ++ s2 ++ s3) = 1) ∧
    (s3 = 0x3D#8 → s2 = 0x3D#8 → s1 ≠ 0x3D#8 → trailingPads (s0 ++ s1 ++ s2 ++ s3) = 2) ∧
    (s3 = 0x3D#8 → s2 = 0x3D#8 → s1 = 0x3D#8 → s0 ≠ 0x3D#8 → trailingPads (s0 ++ s1 ++ s2 ++ s3) = 3) ∧
    (s3 = 0x3D#8 → s2 = 0x3D#8 → s1 = 0x3D#8 → s0 = 0x3D#8 → trailingPads (s0 ++ s1 ++ s2 ++ s3) = 4)

/-- R114. DECQ [PC]: its words; its errors in the rule's order; otherwise DOUT, NOUT, PADCNT, FINAL and the counters as
the rule's pseudocode gives them, and nothing else. -/
def Obligations.DecqDecodesTheQuantum : Prop :=
  (∀ pc : BitVec 2, decode true (0x00000002#32 + 16#32 * pc.setWidth 32) = .decq pc) ∧
  decode false 0x00000002#32 = .decq 0#2 ∧
  (∀ pc : BitVec 2, pc ≠ 0#2 →
    decode false (0x00000002#32 + 16#32 * pc.setWidth 32) = .illegal (0x00000002#32 + 16#32 * pc.setWidth 32)) ∧
  ∀ (s : State) (pc : BitVec 2),
    let p := if s.nopad = false then trailingPads s.din else pc.toNat
    let r := 4 - p
    let a := 3 - p
    let g (i : Nat) : Group := if i < r then groupOf (lane s.din i) else 0#6
    let c := regroup6to8 { g0 := g 0, g1 := g 1, g2 := g 2, g3 := g 3 } a
    let invalid : Prop := s.fast = false ∧ ∃ i, i < r ∧ isValidSymbol (lane s.din i) = false
    (s.nopad = false ∧ pc ≠ 0#2 → exec (.decq pc) s = .next (raiseError .illegalCmd s)) ∧
    (s.nopad = true ∨ pc = 0#2 →
      (s.status.final = true → exec (.decq pc) s = .next (raiseError .length s)) ∧
      (s.status.final = false → 3 ≤ p → exec (.decq pc) s = .next (raiseError .padRange s)) ∧
      (s.status.final = false → p < 3 → invalid → exec (.decq pc) s = .next (raiseError .invalidSymbol s)) ∧
      (s.status.final = false → p < 3 → ¬ invalid → exec (.decq pc) s = .next { s with
        dout := c.c0 ++ c.c1 ++ c.c2 ++ 0x00#8
        status := { s.status with nout := BitVec.ofNat 3 a, padcnt := BitVec.ofNat 2 p, final := decide (0 < p) }
        bytecnt := s.bytecnt + BitVec.ofNat 32 a
        symcnt := s.symcnt + BitVec.ofNat 32 (if s.nopad = false then 4 else r) }))

/-- R94. The bits beyond the payload are dropped without check: after a padded quantum that decoded, a quantum whose
last payload symbol differs in those 2p low bits only decodes to the same state but for DIN; `Zh==` gives what `Zg==`
gives. -/
def Obligations.DecqDropsNonCanonicalTailBits : Prop :=
  (∀ (s t : State) (d : Word) (pc : BitVec 2),
    exec (.decq pc) s = .next t → t.status.nout ≠ 0#3 → t.status.padcnt ≠ 0#2 →
    let p := t.status.padcnt.toNat
    (∀ i, i < 3 - p → lane d i = lane s.din i) →
    (∀ i, 4 - p ≤ i → i < 4 → lane d i = lane s.din i) →
    isValidSymbol (lane d (3 - p)) = true →
    (∀ k, 2 * p ≤ k → (groupOf (lane d (3 - p))).getLsbD k = (groupOf (lane s.din (3 - p))).getLsbD k) →
    exec (.decq pc) { s with din := d } = .next { t with din := d }) ∧
  ∀ s : State, s.status.final = false → s.nopad = false →
    ∃ t u, exec (.decq 0#2) { s with din := 0x5A673D3D#32 } = .next t ∧
      exec (.decq 0#2) { s with din := 0x5A683D3D#32 } = .next u ∧
      t.dout = 0x66000000#32 ∧ u.dout = t.dout ∧ RecordsNoError s u

/-- R96 at the register port (the spec's inference), for both values of NOPAD and of FAST: ENCQ of N bytes, END, the
result moved to DIN and DECQ (with PADCNT as PC when NOPAD = 1) give the N bytes back, record no error, and count N
bytes. -/
def Obligations.EncodedQuantumDecodesBack : Prop :=
  ∀ (s : State) (n : BitVec 2), n ≠ 0#2 → s.status.final = false →
    ∃ t u v, exec (.encq n) s = .next t ∧ exec .endStream t = .next u ∧
      exec (.decq (if s.nopad = true then t.status.padcnt else 0#2)) { u with din := t.dout } = .next v ∧
      RecordsNoError s v ∧ v.status.nout = n.setWidth 3 ∧ v.bytecnt = n.setWidth 32 ∧
      ∀ j, j < 4 → lane v.dout j = if j < n.toNat then lane s.din j else 0x00#8

/-- R111 (an inference of the spec's). With NOPAD = 0, a stream whose quanta so far were full, and no wrap of the
counter: a DECQ that decodes leaves `BYTECNT = 3*(SYMCNT/4) - PADCNT`. -/
def Obligations.DecodedLengthFollowsTheSymbolCount : Prop :=
  ∀ s t : State, s.nopad = false → s.symcnt.toNat % 4 = 0 → s.bytecnt.toNat = 3 * (s.symcnt.toNat / 4) →
    s.symcnt.toNat + 4 < 2 ^ 32 → exec (.decq 0#2) s = .next t → t.status.nout ≠ 0#3 →
    t.symcnt.toNat % 4 = 0 ∧ t.bytecnt.toNat = 3 * (t.symcnt.toNat / 4) - t.status.padcnt.toNat

/-! ## Control commands and errors -/

/-- R118. NOP: its word, and no state changes; a malformed NOP word raises ILLEGAL_CMD. -/
def Obligations.NopChangesNothing : Prop :=
  (∀ nopad : Bool, decode nopad 0x00000000#32 = .nop) ∧ (∀ s : State, exec .nop s = .next s) ∧
  ∀ s : State, executeWord 0x00000010#32 s = .next (raiseError .illegalCmd s) ∧
    executeWord 0x00000040#32 s = .next (raiseError .illegalCmd s)

/-- R119. END: its word; FINAL, BYTECNT and SYMCNT become 0 and nothing else changes. -/
def Obligations.EndClosesTheStream : Prop :=
  (∀ nopad : Bool, decode nopad 0x00000006#32 = .endStream) ∧
  ∀ s : State, exec .endStream s = .next { s with
    status := { s.status with final := false }, bytecnt := 0#32, symcnt := 0#32 }

/-- R120. CLRERR: its word; ERR, ECODE and EOVF become 0, irq falls, and nothing else changes; a malformed CLRERR word
adds to the record. -/
def Obligations.ClrerrClearsTheErrorRecord : Prop :=
  (∀ nopad : Bool, decode nopad 0x00000007#32 = .clrerr) ∧
  (∀ s : State, ∃ t, exec .clrerr s = .next t ∧ t.irq = false ∧
    t = { s with status := { s.status with err := false, ecode := 0#3, eovf := false } }) ∧
  ∀ s : State, executeWord 0x00000017#32 s = .next (raiseError .illegalCmd s)

/-- R121. SRST: its word; every piece of the block's state takes its reset value, and every register reads as after
hardware reset. The host's side of the port stays. -/
def Obligations.SrstResetsEveryRegister : Prop :=
  (∀ nopad : Bool, decode nopad 0x00000008#32 = .srst) ∧
  ∀ s : State, ∃ t, exec .srst s = .next t ∧
    t = { s with
      ctrl := 0#3
      status := { err := false, ecode := 0#3, final := false, padcnt := 0#2, nout := 0#3, eovf := false }
      din := 0#32, dout := 0#32, bytecnt := 0#32, symcnt := 0#32 } ∧
    ∀ r : Reg, readReg r t = readReg r State.reset

/-- R127. `raise E(code)`: the first error sets ERR and ECODE, a later one EOVF only; DOUT, NOUT and PADCNT become 0;
nothing else changes. The codes are R125's. -/
def Obligations.RaiseErrorRecordsOnlyTheError : Prop :=
  ∀ (code : ErrCode) (s : State),
    (s.status.err = false → raiseError code s = { s with
      dout := 0x00000000#32
      status := { s.status with
        err := true
        ecode := (match code with | .illegalCmd => 1#3 | .padRange => 2#3 | .invalidSymbol => 3#3 | .length => 4#3)
        nout := 0#3, padcnt := 0#2 } }) ∧
    (s.status.err = true → raiseError code s = { s with
      dout := 0x00000000#32, status := { s.status with eovf := true, nout := 0#3, padcnt := 0#2 } })

/-- R67. A word with one of the four defects raises ILLEGAL_CMD and does nothing else; and that is what the command
`illegal` does with any word. -/
def Obligations.IllegalWordRaisesIllegalCmd : Prop :=
  (∀ (s : State) (w : Word),
    let op := (w.extractLsb' 0 4).toNat
    let f := w.extractLsb' 4 2
    9 ≤ op ∨ w.extractLsb' 6 26 ≠ 0#26 ∨ (f ≠ 0#2 ∧ op ≠ 1 ∧ op ≠ 2) ∨ (op = 2 ∧ f ≠ 0#2 ∧ s.nopad = false) →
    executeWord w s = .next (raiseError .illegalCmd s)) ∧
  ∀ (s : State) (w : Word), exec (.illegal w) s = .next (raiseError .illegalCmd s)

/-- R134. A command raises at most one error, the first that applies in the order ILLEGAL_CMD, LENGTH, PAD_RANGE,
INVALID_SYMBOL; a command to which none applies, other than CLRERR and SRST, leaves the error record as it was. -/
def Obligations.ErrorsAreRaisedInPriorityOrder : Prop :=
  ∀ (s : State) (w : Word),
    let op := (w.extractLsb' 0 4).toNat
    let pc : BitVec 2 := w.extractLsb' 4 2
    let p := if s.nopad = false then trailingPads s.din else pc.toNat
    let invalid : Prop := s.fast = false ∧ ∃ i, i < 4 - p ∧ isValidSymbol (lane s.din i) = false
    (isIllegalWord s.nopad w = true → executeWord w s = .next (raiseError .illegalCmd s)) ∧
    (isIllegalWord s.nopad w = false →
      ((op = 1 ∨ op = 2) ∧ s.status.final = true → executeWord w s = .next (raiseError .length s)) ∧
      (op = 2 ∧ s.status.final = false ∧ 3 ≤ p → executeWord w s = .next (raiseError .padRange s)) ∧
      (op = 2 ∧ s.status.final = false ∧ p < 3 ∧ invalid → executeWord w s = .next (raiseError .invalidSymbol s)) ∧
      (¬ ((op = 1 ∨ op = 2) ∧ s.status.final = true) → ¬ (op = 2 ∧ (3 ≤ p ∨ invalid)) → op ≠ 7 → op ≠ 8 →
        ∃ t, executeWord w s = .next t ∧ RecordsNoError s t))

/-- R42, R132. irq is ERR AND ERRIE: raising an error asserts it exactly when ERRIE = 1, clearing the record drops it,
and writing ERRIE = 0 drops it and keeps the record. -/
def Obligations.IrqIsErrAndErrie : Prop :=
  ∀ s : State,
    s.irq = (s.status.err && s.ctrl.getLsbD 2) ∧
    (∀ code : ErrCode, (raiseError code s).irq = s.ctrl.getLsbD 2) ∧
    (∀ t : State, exec .clrerr s = .next t → t.irq = false) ∧
    (∀ v : Word, v.getLsbD 2 = false → (writeReg .ctrl v s).irq = false ∧ (writeReg .ctrl v s).status = s.status)

/-! ## Encoding -/

/-- R63, R66, R74. The command words, written out bit by bit from the encodings, decode to their commands. -/
def Obligations.CommandWordsDecodeToTheirCommands : Prop :=
  decode false 0b00000000000000000000000000000000#32 = .nop ∧
  decode false 0b00000000000000000000000000110001#32 = .encq 3#2 ∧
  decode true 0b00000000000000000000000000010010#32 = .decq 1#2 ∧
  decode false 0b00000000000000000000000000000011#32 = .symof ∧
  decode false 0b00000000000000000000000000000110#32 = .endStream ∧
  decode false 0b00000000000000000000000000010010#32 = .illegal 0x00000012#32 ∧
  decode true 0b10000000000000000000000000000000#32 = .illegal 0x80000000#32

/-- Decoding the word of a well-formed command gives it back, in both modes (R63, R66, R67, R71). -/
def Obligations.DecodeOfEncodeIsTheCommand : Prop :=
  ∀ (nopad : Bool) (i : Instr), i.wellFormed nopad = true → decode nopad (encode i) = i

/-- Every word decodes to a well-formed command whose word it is: each of the 2^32 words has one meaning in each mode
(R67, R71). -/
def Obligations.EncodeOfDecodeIsTheWord : Prop :=
  ∀ (nopad : Bool) (w : Word), encode (decode nopad w) = w ∧ (decode nopad w).wellFormed nopad = true

/-- R68 (an inference of the spec's). Exactly 12 words are legal with NOPAD = 0 and exactly 15 with NOPAD = 1. -/
def Obligations.LegalWordsAreTwelveAndFifteen : Prop :=
  let always : List Word :=
    [0x00000000#32, 0x00000001#32, 0x00000011#32, 0x00000021#32, 0x00000031#32, 0x00000002#32] ++
    [0x00000003#32, 0x00000004#32, 0x00000005#32, 0x00000006#32, 0x00000007#32, 0x00000008#32]
  let withNopad : List Word := [0x00000012#32, 0x00000022#32, 0x00000032#32]
  (∀ w : Word, decode false w ≠ .illegal w ↔ w ∈ always) ∧
  ∀ w : Word, decode true w ≠ .illegal w ↔ w ∈ always ++ withNopad

/-- Decoding agrees with the masks of the opcode table: a word decodes to a command of a row only if it fits the row,
and a word that fits a row decodes to a command of that row unless it is DECQ with F != 0 and NOPAD = 0 (R66, R67). -/
def Obligations.DecodeAgreesWithTheOpcodeTable : Prop :=
  ∀ (nopad : Bool) (w : Word) (i : Instr) (row : OpcodeRow), i.tableRow? = some row →
    (decode nopad w = i → row.fits w = true) ∧
    (row.fits w = true → (nopad = true ∨ ¬ (∃ pc, i = .decq pc) ∨ w.extractLsb' 4 2 = 0#2) →
      (decode nopad w).tableRow? = some row)

/-! ## The register port -/

/-- A step runs the decoded command: the word written to CMD is decoded in the mode of CTRL.NOPAD and executed with the
write taken off the pending events, nothing else around it (R39, R72; the list of pending events is log entry 1). -/
def Obligations.StepRunsTheDecodedCommand : Prop :=
  (∀ (s : State) (w : Word) (rest : List HostEvent), Ready s →
    s.pending = .access (.write 0x14 4 w) :: rest → step s = exec (decode s.nopad w) { s with pending := rest }) ∧
  (∀ (s : State) (i : Instr) (rest : List HostEvent), Ready s → i.wellFormed s.nopad = true →
    s.pending = .access (.write 0x14 4 (encode i)) :: rest → step s = exec i { s with pending := rest }) ∧
  ∀ (s : State) (w : Nat), Ready s → step (s.withFetchWord 32 w) = exec (decode s.nopad (BitVec.ofNat 32 w)) s

/-- R50. What a read of each offset returns; the read has no other effect. -/
def Obligations.ReadReturnsTheRegister : Prop :=
  ∀ (s : State) (off : Int) (v : Word) (rest : List HostEvent), Ready s →
    s.pending = .access (.read off 4) :: rest →
    (off, v) ∈ ([(0x00, 0x42363401#32), (0x04, s.ctrl.setWidth 32),
      (0x08, 0#21 ++ BitVec.ofBool s.status.eovf ++ s.status.nout ++ s.status.padcnt
        ++ BitVec.ofBool s.status.final ++ s.status.ecode ++ BitVec.ofBool s.status.err),
      (0x0C, s.din), (0x10, s.dout), (0x14, 0x00000000#32), (0x18, s.bytecnt), (0x1C, s.symcnt)]
      : List (Int × Word)) →
    step s = .next { s with pending := rest, reads := s.reads ++ [v] }

/-- R52. What a write of each offset does: CTRL takes bits 2:0, DIN all bits, CMD executes, the others nothing. -/
def Obligations.WriteFollowsTheRegisterMap : Prop :=
  ∀ (s : State) (off : Int) (v : Word) (rest : List HostEvent), Ready s →
    s.pending = .access (.write off 4 v) :: rest →
    (off ∈ ([0x00, 0x08, 0x10, 0x18, 0x1C] : List Int) → step s = .next { s with pending := rest }) ∧
    (off = 0x04 → step s = .next { s with pending := rest, ctrl := v.extractLsb' 0 3 }) ∧
    (off = 0x0C → step s = .next { s with pending := rest, din := v }) ∧
    (off = 0x14 → step s = executeWord v { s with pending := rest })

/-- R25. A write of v to CTRL stores v[2:0], discards the other bits without error and alters no other register; a read
that follows returns them zero-extended, and a command that follows is decoded and executed with them. -/
def Obligations.CtrlKeepsThreeBits : Prop :=
  ∀ (s : State) (v : Word) (rest : List HostEvent), Ready s → s.pending = .access (.write 0x04 4 v) :: rest →
    ∃ t, step s = .next t ∧ t = { s with ctrl := v.extractLsb' 0 3, pending := rest } ∧
      (∀ later, rest = .access (.read 0x04 4) :: later →
        step t = .next { t with pending := later, reads := s.reads ++ [v &&& 0x00000007#32] }) ∧
      ∀ w later, rest = .access (.write 0x14 4 w) :: later →
        step t = exec (decode (v.getLsbD 1) w) { s with ctrl := v.extractLsb' 0 3, pending := later }

/-- The fields of STATUS stand at the bits R29 gives them, and bits 31:11 read 0. -/
def Obligations.StatusFieldsStandAtTheirBits : Prop :=
  ∀ st : Status,
    st.word.getLsbD 0 = st.err ∧ st.word.extractLsb' 1 3 = st.ecode ∧ st.word.getLsbD 4 = st.final ∧
    st.word.extractLsb' 5 2 = st.padcnt ∧ st.word.extractLsb' 7 3 = st.nout ∧ st.word.getLsbD 10 = st.eovf ∧
    st.word.extractLsb' 11 21 = 0#21

/-- R51. An access of another size than 4, or at an offset that is no multiple of 4, is refused. -/
def Obligations.UnadmittedAccessIsRefused : Prop :=
  ∀ (s : State) (a : HostAccess) (off : Int) (size : Nat) (rest : List HostEvent), Ready s →
    s.pending = .access a :: rest → (a = .read off size ∨ ∃ v, a = .write off size v) →
    size ≠ 4 ∨ off % 4 ≠ 0 → ∃ why, step s = .refused why

/-- In a legal state a step never faults, and it is refused exactly for an access that is not a word access at a
multiple of 4 inside the window (R51, R55, R56, I8, I12). -/
def Obligations.LegalStepStopsOnlyOnUnadmittedAccess : Prop :=
  ∀ s : State, Legal s →
    (∀ why, step s ≠ .fault why) ∧
    ((∃ why, step s = .refused why) ↔
      ∃ (off : Int) (size : Nat) (rest : List HostEvent),
        (s.pending = .access (.read off size) :: rest ∨ ∃ v, s.pending = .access (.write off size v) :: rest) ∧
        (size ≠ 4 ∨ off % 4 ≠ 0 ∨ off < 0 ∨ 32 ≤ off))

/-- Before the first reset every access is refused, whatever the registers hold (R150; the field `resetSeen` and the
refusal's name are log entry 5's). -/
def Obligations.AccessBeforeResetIsRefused : Prop :=
  ∀ (s : State) (a : HostAccess) (rest : List HostEvent), s.resetSeen = false → s.pending = .access a :: rest →
    step s = .refused .accessBeforeReset

/-- R147. A clock edge with rst = 1 gives every piece of the block's state its reset value whatever it held before, the
first reset included, and loses the access presented with it. -/
def Obligations.HardwareResetGivesTheResetState : Prop :=
  ∀ (s : State) (lost : Option HostAccess) (rest : List HostEvent), s.pending = .rst lost :: rest →
    ∃ t, step s = .next t ∧ t.irq = false ∧ readReg .id t = 0x42363401#32 ∧
      t = { ctrl := 0#3
            status := { err := false, ecode := 0#3, final := false, padcnt := 0#2, nout := 0#3, eovf := false }
            din := 0#32, dout := 0#32, bytecnt := 0#32, symcnt := 0#32
            resetSeen := true, pending := rest, reads := s.reads }

/-- R148. SRST produces exactly the state that a hardware reset produces. -/
def Obligations.SrstEqualsHardwareReset : Prop :=
  ∀ (s : State) (lost : Option HostAccess) (rest : List HostEvent), Ready s →
    step { s with pending := .access (.write 0x14 4 0x00000008#32) :: rest } =
      step { s with pending := .rst lost :: rest }

/-- With no host event pending a step changes nothing: the block takes no step of its own (R6, R146; log entry 3). -/
def Obligations.IdleStepChangesNothing : Prop :=
  ∀ s : State, s.pending = [] → step s = .next s

/-- The signal-level port carries admitted accesses only: in a legal state the event of any clock edge is performed, and
the state after it is again ready (R56, R146, R153). -/
def Obligations.EveryBusCycleIsPerformed : Prop :=
  ∀ (s : State) (c : BusCycle) (e : HostEvent) (rest : List HostEvent), Legal s → c.event? = some e →
    s.pending = e :: rest → ∃ t, step s = .next t ∧ Ready t

/-! ## Whole texts -/

/-- R116, R102, R90 (the spec's inferences). In an open stream the encode loop over any bytes completes and records no
error; its text is the symbols of the source's whole-sequence groups and, with NOPAD = 0, the pads that make it a
multiple of four; BYTECNT counts the bytes and SYMCNT the symbols. -/
def Obligations.TextEncodesAsTheSource : Prop :=
  ∀ (fill : Byte) (xs : List Byte) (s : State), Ready s → s.status.final = false →
    ∃ out t, hostEncode fill xs s = some (out, t) ∧ RecordsNoError s t ∧
      out = (bytesToGroups xs).map symbolOf ++
        (if s.nopad = true then [] else List.replicate ((3 - xs.length % 3) % 3) 0x3D#8) ∧
      (s.nopad = false → out.length % 4 = 0) ∧
      t.bytecnt = s.bytecnt + BitVec.ofNat 32 xs.length ∧ t.symcnt = s.symcnt + BitVec.ofNat 32 out.length

/-- R116, R117 and R96 over whole texts (the spec's inferences): with no error recorded, what the encode loop gives in an
open stream the decode loop gives back after END, byte for byte and recording no error: padded with NOPAD = 0, stripped
with NOPAD = 1, for both values of FAST, whatever stands in the lanes that are not read. -/
def Obligations.EncodedTextDecodesBack : Prop :=
  ∀ (fill gap : Byte) (xs : List Byte) (s : State), Ready s → s.status.final = false → s.status.err = false →
    ∃ out t u v, hostEncode fill xs s = some (out, t) ∧ issue [command .endStream] t = some u ∧
      (if s.nopad = true then hostDecodeStripped gap out u else hostDecodePadded out u) = .done xs v ∧
      RecordsNoError s v

/-! ## Rules of the whole machine -/

/-- Every command completes, in every state (R137, R153). -/
def Obligations.EveryCommandCompletes : Prop :=
  ∀ (i : Instr) (s : State), ∃ t, exec i s = .next t

/-- What commands leave unchanged (R37, R38, R40, R41, R83 to R85, R118 to R120, R127). Every command: the host's side
of the port. All but SRST: CTRL and DIN. All but ENCQ, DECQ, END and SRST: FINAL and the counters. NOP, END and CLRERR:
DOUT, NOUT and PADCNT. NOP, END, SYMOF, GRPOF and VALID: the error record. -/
def Obligations.CommandsKeepWhatTheyDoNotName : Prop :=
  ∀ (i : Instr) (s t : State), exec i s = .next t →
    (t.resetSeen = s.resetSeen ∧ t.pending = s.pending ∧ t.reads = s.reads) ∧
    (i ≠ .srst → t.ctrl = s.ctrl ∧ t.din = s.din) ∧
    ((∀ n, i ≠ .encq n) → (∀ pc, i ≠ .decq pc) → i ≠ .endStream → i ≠ .srst →
      t.status.final = s.status.final ∧ t.bytecnt = s.bytecnt ∧ t.symcnt = s.symcnt) ∧
    (i = .nop ∨ i = .endStream ∨ i = .clrerr →
      t.dout = s.dout ∧ t.status.nout = s.status.nout ∧ t.status.padcnt = s.status.padcnt) ∧
    (i = .nop ∨ i = .endStream ∨ i = .symof ∨ i = .grpof ∨ i = .valid → RecordsNoError s t)

/-- R40. BYTECNT, read at 0x18 and not written by the host: a completed ENCQ adds N, a completed DECQ its output byte
count, both modulo 2^32; END, SRST and reset set it to 0; a raised error (which leaves NOUT = 0) and every other
command leave it. -/
def Obligations.BytecntCountsStreamBytes : Prop :=
  regAt 0x18 = some .bytecnt ∧
  (∀ s : State, readReg .bytecnt s = s.bytecnt ∧ (∀ v, writeReg .bytecnt v s = s) ∧
    ∀ lost, ∃ t, perform (.rst lost) s = .next t ∧ t.bytecnt = 0#32) ∧
  ∀ (i : Instr) (s t : State), exec i s = .next t →
    (∀ n, i = .encq n → t.bytecnt = if s.status.final = true then s.bytecnt else s.bytecnt + n.setWidth 32) ∧
    (∀ pc, i = .decq pc → t.bytecnt = s.bytecnt + t.status.nout.setWidth 32) ∧
    (i = .endStream ∨ i = .srst → t.bytecnt = 0#32) ∧
    ((∀ n, i ≠ .encq n) → (∀ pc, i ≠ .decq pc) → i ≠ .endStream → i ≠ .srst → t.bytecnt = s.bytecnt)

/-- SYMCNT as R41's first three sentences say, read at 0x1C and not written by the host: a completed ENCQ adds its NOUT,
a completed DECQ 4 with NOPAD = 0 and 4 - PADCNT with NOPAD = 1, both modulo 2^32; END, SRST and reset set it to 0; a
raised error (NOUT = 0) and every other command leave it. -/
def Obligations.SymcntCountsStreamSymbols : Prop :=
  regAt 0x1C = some .symcnt ∧
  (∀ s : State, readReg .symcnt s = s.symcnt ∧ (∀ v, writeReg .symcnt v s = s) ∧
    ∀ lost, ∃ t, perform (.rst lost) s = .next t ∧ t.symcnt = 0#32) ∧
  ∀ (i : Instr) (s t : State), exec i s = .next t →
    (∀ n, i = .encq n → t.symcnt = s.symcnt + t.status.nout.setWidth 32) ∧
    (∀ pc, i = .decq pc → t.symcnt = s.symcnt +
      (if t.status.nout = 0#3 then 0#32 else if s.nopad = true then 4#32 - t.status.padcnt.setWidth 32 else 4#32)) ∧
    (i = .endStream ∨ i = .srst → t.symcnt = 0#32) ∧
    ((∀ n, i ≠ .encq n) → (∀ pc, i ≠ .decq pc) → i ≠ .endStream → i ≠ .srst → t.symcnt = s.symcnt)

/-- FINAL becomes 1 exactly by an ENCQ or DECQ that completes with a nonzero pad count, and 0 exactly by END and SRST
(R32, R108, R109). -/
def Obligations.FinalMarksThePartialQuantum : Prop :=
  ∀ (i : Instr) (s t : State), exec i s = .next t →
    (t.status.final = true ↔
      (s.status.final = true ∧ i ≠ .endStream ∧ i ≠ .srst) ∨
      (((∃ n, i = .encq n) ∨ ∃ pc, i = .decq pc) ∧ t.status.padcnt ≠ 0#2))

/-- Once an error is recorded, no command but CLRERR and SRST changes its code or clears EOVF (R31, R35, R135). -/
def Obligations.FirstErrorCodeIsKept : Prop :=
  ∀ (i : Instr) (s t : State), exec i s = .next t → s.status.err = true → i ≠ .clrerr → i ≠ .srst →
    t.status.err = true ∧ t.status.ecode = s.status.ecode ∧ (s.status.eovf = true → t.status.eovf = true)

/-- Only a write to CMD can record an error: a step after which ERR or EOVF is newly set performed one (R124). -/
def Obligations.OnlyACommandRecordsAnError : Prop :=
  ∀ s t : State, step s = .next t →
    (s.status.err = false ∧ t.status.err = true) ∨ (s.status.eovf = false ∧ t.status.eovf = true) →
    ∃ (w : Word) (rest : List HostEvent), s.pending = .access (.write 0x14 4 w) :: rest

/-- ERR is sticky: a step that clears it performed CLRERR, SRST or a reset (R30). -/
def Obligations.OnlyClrerrSrstOrResetClearsErr : Prop :=
  ∀ s t : State, step s = .next t → s.status.err = true → t.status.err = false →
    ∃ rest : List HostEvent,
      s.pending = .access (.write 0x14 4 0x00000007#32) :: rest ∨
      s.pending = .access (.write 0x14 4 0x00000008#32) :: rest ∨ ∃ lost, s.pending = .rst lost :: rest

/-- A command's result does not depend on the bits of DIN that it does not read: two states that differ in those bits
only go to states that differ in DIN only (R65, I16). SRST, which clears DIN, is left to `SrstResetsEveryRegister`. -/
def Obligations.UnreadDinBitsDoNotMatter : Prop :=
  ∀ (i : Instr) (s : State) (d : Word), i ≠ .srst →
    (∀ n, i = .encq n → ∀ j, j < n.toNat → lane d j = lane s.din j) →
    (∀ pc, i = .decq pc → ∀ j, j < (if s.nopad = true then 4 - pc.toNat else 4) → lane d j = lane s.din j) →
    (i = .symof → d.extractLsb' 0 6 = s.din.extractLsb' 0 6) →
    (i = .grpof ∨ i = .valid → d.extractLsb' 0 8 = s.din.extractLsb' 0 8) →
    ∃ t, exec i s = .next t ∧ exec i { s with din := d } = .next { t with din := d }

/-- Each option bit reaches only the commands that the spec names: FAST only DECQ, NOPAD only ENCQ and DECQ, ERRIE
none (R26, R27, R28). Two states that differ in such bits only go to states that differ in CTRL only. -/
def Obligations.OptionBitsReachTheirCommandsOnly : Prop :=
  ∀ (i : Instr) (s : State) (c : BitVec 3), i ≠ .srst →
    ((∃ pc, i = .decq pc) → c.getLsbD 0 = s.ctrl.getLsbD 0) →
    ((∃ n, i = .encq n) ∨ (∃ pc, i = .decq pc) → c.getLsbD 1 = s.ctrl.getLsbD 1) →
    ∃ t, exec i s = .next t ∧ exec i { s with ctrl := c } = .next { t with ctrl := c }

/-! ## Invariants -/

/-- The state after reset is legal and its counters balance (R45). -/
def Obligations.ResetStateIsLegalAndBalanced : Prop :=
  Legal State.reset ∧ CountersBalanced State.reset

/-- Every step from a legal state that goes on leads to a legal state: the reserved values of STATUS are never produced,
ECODE = 0 exactly when ERR = 0, EOVF stands only beside ERR, and no result is left behind NOUT = 0 (R29, R31, R35,
R127, I12). -/
def Obligations.StepKeepsTheStateLegal : Prop :=
  ∀ s t : State, Legal s → step s = .next t → Legal t

/-- Every step keeps the counters balanced, over any host's accesses and changes of CTRL: `4*BYTECNT = 3*SYMCNT` while
the stream is open, and the excess of a padded or unpadded partial quantum after it (R40, R41, R108, R109). -/
def Obligations.StepKeepsTheCountersBalanced : Prop :=
  ∀ s t : State, CountersBalanced s → step s = .next t → CountersBalanced t
end

