-- ==== Sys2Proof/Laws/Alphabet.lean ====
section
/-! SUPPORT. Small facts about the LUTs, the pad scan and lanes that proofs about the codec cite. -/

namespace Sys2Proof.Machine

/-- The forward LUT never gives the pad byte. -/
theorem symbolOf_ne_pad : ∀ g : Group, symbolOf g ≠ Config.padSymbol := by decide

/-- The pad byte is no symbol of the alphabet. -/
@[simp] theorem isValidSymbol_pad : isValidSymbol Config.padSymbol = false := by decide

/-- The scan finds at most as many pads as there are bytes. -/
theorem leadingPads_le (bs : List Byte) : leadingPads bs ≤ bs.length := by
  induction bs with
  | nil => simp [leadingPads]
  | cons b rest ih =>
    simp only [leadingPads]
    split <;> simp only [List.length_cons] <;> omega

/-- The scan finds at most four pads in a quantum. -/
theorem trailingPads_le (din : Word) : trailingPads din ≤ 4 := leadingPads_le _

/-- The bits of a word made of four lanes. -/
theorem ofLanes_getLsbD (a b c d : Byte) (i : Nat) : (ofLanes a b c d).getLsbD i =
    if i < 8 then d.getLsbD i else if i < 16 then c.getLsbD (i - 8) else if i < 24 then b.getLsbD (i - 16)
    else a.getLsbD (i - 24) := by
  change BitVec.getLsbD (w := 8 + 8 + 8 + 8) (a ++ b ++ c ++ d) i = _
  simp only [BitVec.getLsbD_append]
  split
  · simp [*]
  · split
    · simp [*, show i < 16 by omega]
    · split
      · simp [*, show ¬ i < 16 by omega, show i < 24 by omega, show i - 8 - 8 = i - 16 by omega]
      · simp [*, show ¬ i < 16 by omega, show ¬ i < 24 by omega, show i - 8 - 8 - 8 = i - 24 by omega]

/-- The lanes of a word put together are its lanes again. -/
@[simp] theorem lane_ofLanes_0 (a b c d : Byte) : lane (ofLanes a b c d) 0 = a := by
  apply BitVec.eq_of_getLsbD_eq
  intro i hi
  rw [lane, BitVec.getLsbD_extractLsb', ofLanes_getLsbD]
  simp [hi, show ¬ 24 + i < 8 by omega, show ¬ 24 + i < 16 by omega]

@[simp] theorem lane_ofLanes_1 (a b c d : Byte) : lane (ofLanes a b c d) 1 = b := by
  apply BitVec.eq_of_getLsbD_eq
  intro i hi
  rw [lane, BitVec.getLsbD_extractLsb', ofLanes_getLsbD]
  simp [hi, show ¬ 16 + i < 8 by omega, show 16 + i < 24 by omega]

@[simp] theorem lane_ofLanes_2 (a b c d : Byte) : lane (ofLanes a b c d) 2 = c := by
  apply BitVec.eq_of_getLsbD_eq
  intro i hi
  rw [lane, BitVec.getLsbD_extractLsb', ofLanes_getLsbD]
  simp [hi, show 8 + i < 16 by omega]

@[simp] theorem lane_ofLanes_3 (a b c d : Byte) : lane (ofLanes a b c d) 3 = d := by
  apply BitVec.eq_of_getLsbD_eq
  intro i hi
  rw [lane, BitVec.getLsbD_extractLsb', ofLanes_getLsbD]
  simp [hi]

end Sys2Proof.Machine
end

