-- ==== Sys2Proof/Laws/State.lean ====
section
/-! SUPPORT. One lemma per field per update: what each shared operation leaves in each field, so that no later proof
unfolds a record update. -/

namespace Sys2Proof.Machine

@[simp] theorem Status.withResult_err (n p : Nat) (st : Status) : (st.withResult n p).err = st.err := rfl
@[simp] theorem Status.withResult_ecode (n p : Nat) (st : Status) : (st.withResult n p).ecode = st.ecode := rfl
@[simp] theorem Status.withResult_final (n p : Nat) (st : Status) : (st.withResult n p).final = st.final := rfl
@[simp] theorem Status.withResult_padcnt (n p : Nat) (st : Status) : (st.withResult n p).padcnt = BitVec.ofNat 2 p := rfl
@[simp] theorem Status.withResult_nout (n p : Nat) (st : Status) : (st.withResult n p).nout = BitVec.ofNat 3 n := rfl
@[simp] theorem Status.withResult_eovf (n p : Nat) (st : Status) : (st.withResult n p).eovf = st.eovf := rfl

@[simp] theorem Status.markFinal_err (b : Bool) (st : Status) : (st.markFinal b).err = st.err := rfl
@[simp] theorem Status.markFinal_ecode (b : Bool) (st : Status) : (st.markFinal b).ecode = st.ecode := rfl
@[simp] theorem Status.markFinal_final (b : Bool) (st : Status) : (st.markFinal b).final = (st.final || b) := rfl
@[simp] theorem Status.markFinal_padcnt (b : Bool) (st : Status) : (st.markFinal b).padcnt = st.padcnt := rfl
@[simp] theorem Status.markFinal_nout (b : Bool) (st : Status) : (st.markFinal b).nout = st.nout := rfl
@[simp] theorem Status.markFinal_eovf (b : Bool) (st : Status) : (st.markFinal b).eovf = st.eovf := rfl

@[simp] theorem Status.clearError_err (st : Status) : (st.clearError).err = false := rfl
@[simp] theorem Status.clearError_ecode (st : Status) : (st.clearError).ecode = 0#3 := rfl
@[simp] theorem Status.clearError_final (st : Status) : (st.clearError).final = st.final := rfl
@[simp] theorem Status.clearError_padcnt (st : Status) : (st.clearError).padcnt = st.padcnt := rfl
@[simp] theorem Status.clearError_nout (st : Status) : (st.clearError).nout = st.nout := rfl
@[simp] theorem Status.clearError_eovf (st : Status) : (st.clearError).eovf = false := rfl

@[simp] theorem Status.clearFinal_err (st : Status) : (st.clearFinal).err = st.err := rfl
@[simp] theorem Status.clearFinal_ecode (st : Status) : (st.clearFinal).ecode = st.ecode := rfl
@[simp] theorem Status.clearFinal_final (st : Status) : (st.clearFinal).final = false := rfl
@[simp] theorem Status.clearFinal_padcnt (st : Status) : (st.clearFinal).padcnt = st.padcnt := rfl
@[simp] theorem Status.clearFinal_nout (st : Status) : (st.clearFinal).nout = st.nout := rfl
@[simp] theorem Status.clearFinal_eovf (st : Status) : (st.clearFinal).eovf = st.eovf := rfl

@[simp] theorem Status.recordError_err (code : ErrCode) (st : Status) :
    (st.recordError code).err = true := by
  cases h : st.err <;> simp [Status.recordError, Status.withResult, h]
@[simp] theorem Status.recordError_ecode (code : ErrCode) (st : Status) :
    (st.recordError code).ecode = (if st.err then st.ecode else code.bits) := by
  cases h : st.err <;> simp [Status.recordError, Status.withResult, h]
@[simp] theorem Status.recordError_final (code : ErrCode) (st : Status) :
    (st.recordError code).final = st.final := by
  cases h : st.err <;> simp [Status.recordError, Status.withResult, h]
@[simp] theorem Status.recordError_padcnt (code : ErrCode) (st : Status) :
    (st.recordError code).padcnt = 0#2 := rfl
@[simp] theorem Status.recordError_nout (code : ErrCode) (st : Status) :
    (st.recordError code).nout = 0#3 := rfl
@[simp] theorem Status.recordError_eovf (code : ErrCode) (st : Status) :
    (st.recordError code).eovf = (st.err || st.eovf) := by
  cases h : st.err <;> simp [Status.recordError, Status.withResult, h]

@[simp] theorem raiseError_ctrl (code : ErrCode) (s : State) : (raiseError code s).ctrl = s.ctrl := rfl
@[simp] theorem raiseError_status (code : ErrCode) (s : State) : (raiseError code s).status = s.status.recordError code := rfl
@[simp] theorem raiseError_din (code : ErrCode) (s : State) : (raiseError code s).din = s.din := rfl
@[simp] theorem raiseError_dout (code : ErrCode) (s : State) : (raiseError code s).dout = 0#32 := rfl
@[simp] theorem raiseError_bytecnt (code : ErrCode) (s : State) : (raiseError code s).bytecnt = s.bytecnt := rfl
@[simp] theorem raiseError_symcnt (code : ErrCode) (s : State) : (raiseError code s).symcnt = s.symcnt := rfl
@[simp] theorem raiseError_resetSeen (code : ErrCode) (s : State) : (raiseError code s).resetSeen = s.resetSeen := rfl
@[simp] theorem raiseError_pending (code : ErrCode) (s : State) : (raiseError code s).pending = s.pending := rfl
@[simp] theorem raiseError_reads (code : ErrCode) (s : State) : (raiseError code s).reads = s.reads := rfl

@[simp] theorem clearErrorRecord_ctrl (s : State) : (clearErrorRecord s).ctrl = s.ctrl := rfl
@[simp] theorem clearErrorRecord_status (s : State) : (clearErrorRecord s).status = s.status.clearError := rfl
@[simp] theorem clearErrorRecord_din (s : State) : (clearErrorRecord s).din = s.din := rfl
@[simp] theorem clearErrorRecord_dout (s : State) : (clearErrorRecord s).dout = s.dout := rfl
@[simp] theorem clearErrorRecord_bytecnt (s : State) : (clearErrorRecord s).bytecnt = s.bytecnt := rfl
@[simp] theorem clearErrorRecord_symcnt (s : State) : (clearErrorRecord s).symcnt = s.symcnt := rfl
@[simp] theorem clearErrorRecord_resetSeen (s : State) : (clearErrorRecord s).resetSeen = s.resetSeen := rfl
@[simp] theorem clearErrorRecord_pending (s : State) : (clearErrorRecord s).pending = s.pending := rfl
@[simp] theorem clearErrorRecord_reads (s : State) : (clearErrorRecord s).reads = s.reads := rfl

@[simp] theorem writeResult_ctrl (d : Word) (n p : Nat) (s : State) : (writeResult d n p s).ctrl = s.ctrl := rfl
@[simp] theorem writeResult_status (d : Word) (n p : Nat) (s : State) : (writeResult d n p s).status = s.status.withResult n p := rfl
@[simp] theorem writeResult_din (d : Word) (n p : Nat) (s : State) : (writeResult d n p s).din = s.din := rfl
@[simp] theorem writeResult_dout (d : Word) (n p : Nat) (s : State) : (writeResult d n p s).dout = d := rfl
@[simp] theorem writeResult_bytecnt (d : Word) (n p : Nat) (s : State) : (writeResult d n p s).bytecnt = s.bytecnt := rfl
@[simp] theorem writeResult_symcnt (d : Word) (n p : Nat) (s : State) : (writeResult d n p s).symcnt = s.symcnt := rfl
@[simp] theorem writeResult_resetSeen (d : Word) (n p : Nat) (s : State) : (writeResult d n p s).resetSeen = s.resetSeen := rfl
@[simp] theorem writeResult_pending (d : Word) (n p : Nat) (s : State) : (writeResult d n p s).pending = s.pending := rfl
@[simp] theorem writeResult_reads (d : Word) (n p : Nat) (s : State) : (writeResult d n p s).reads = s.reads := rfl

@[simp] theorem markFinal_ctrl (b : Bool) (s : State) : (markFinal b s).ctrl = s.ctrl := rfl
@[simp] theorem markFinal_status (b : Bool) (s : State) : (markFinal b s).status = s.status.markFinal b := rfl
@[simp] theorem markFinal_din (b : Bool) (s : State) : (markFinal b s).din = s.din := rfl
@[simp] theorem markFinal_dout (b : Bool) (s : State) : (markFinal b s).dout = s.dout := rfl
@[simp] theorem markFinal_bytecnt (b : Bool) (s : State) : (markFinal b s).bytecnt = s.bytecnt := rfl
@[simp] theorem markFinal_symcnt (b : Bool) (s : State) : (markFinal b s).symcnt = s.symcnt := rfl
@[simp] theorem markFinal_resetSeen (b : Bool) (s : State) : (markFinal b s).resetSeen = s.resetSeen := rfl
@[simp] theorem markFinal_pending (b : Bool) (s : State) : (markFinal b s).pending = s.pending := rfl
@[simp] theorem markFinal_reads (b : Bool) (s : State) : (markFinal b s).reads = s.reads := rfl

@[simp] theorem addCounts_ctrl (n k : Nat) (s : State) : (addCounts n k s).ctrl = s.ctrl := rfl
@[simp] theorem addCounts_status (n k : Nat) (s : State) : (addCounts n k s).status = s.status := rfl
@[simp] theorem addCounts_din (n k : Nat) (s : State) : (addCounts n k s).din = s.din := rfl
@[simp] theorem addCounts_dout (n k : Nat) (s : State) : (addCounts n k s).dout = s.dout := rfl
@[simp] theorem addCounts_bytecnt (n k : Nat) (s : State) : (addCounts n k s).bytecnt = s.bytecnt + BitVec.ofNat 32 n := rfl
@[simp] theorem addCounts_symcnt (n k : Nat) (s : State) : (addCounts n k s).symcnt = s.symcnt + BitVec.ofNat 32 k := rfl
@[simp] theorem addCounts_resetSeen (n k : Nat) (s : State) : (addCounts n k s).resetSeen = s.resetSeen := rfl
@[simp] theorem addCounts_pending (n k : Nat) (s : State) : (addCounts n k s).pending = s.pending := rfl
@[simp] theorem addCounts_reads (n k : Nat) (s : State) : (addCounts n k s).reads = s.reads := rfl

@[simp] theorem closeStream_ctrl (s : State) : (closeStream s).ctrl = s.ctrl := rfl
@[simp] theorem closeStream_status (s : State) : (closeStream s).status = s.status.clearFinal := rfl
@[simp] theorem closeStream_din (s : State) : (closeStream s).din = s.din := rfl
@[simp] theorem closeStream_dout (s : State) : (closeStream s).dout = s.dout := rfl
@[simp] theorem closeStream_bytecnt (s : State) : (closeStream s).bytecnt = 0#32 := rfl
@[simp] theorem closeStream_symcnt (s : State) : (closeStream s).symcnt = 0#32 := rfl
@[simp] theorem closeStream_resetSeen (s : State) : (closeStream s).resetSeen = s.resetSeen := rfl
@[simp] theorem closeStream_pending (s : State) : (closeStream s).pending = s.pending := rfl
@[simp] theorem closeStream_reads (s : State) : (closeStream s).reads = s.reads := rfl

@[simp] theorem resetRegisters_ctrl (s : State) : (resetRegisters s).ctrl = 0#3 := rfl
@[simp] theorem resetRegisters_status (s : State) : (resetRegisters s).status = Status.reset := rfl
@[simp] theorem resetRegisters_din (s : State) : (resetRegisters s).din = 0#32 := rfl
@[simp] theorem resetRegisters_dout (s : State) : (resetRegisters s).dout = 0#32 := rfl
@[simp] theorem resetRegisters_bytecnt (s : State) : (resetRegisters s).bytecnt = 0#32 := rfl
@[simp] theorem resetRegisters_symcnt (s : State) : (resetRegisters s).symcnt = 0#32 := rfl
@[simp] theorem resetRegisters_resetSeen (s : State) : (resetRegisters s).resetSeen = s.resetSeen := rfl
@[simp] theorem resetRegisters_pending (s : State) : (resetRegisters s).pending = s.pending := rfl
@[simp] theorem resetRegisters_reads (s : State) : (resetRegisters s).reads = s.reads := rfl

@[simp] theorem hardReset_ctrl (s : State) : (hardReset s).ctrl = 0#3 := rfl
@[simp] theorem hardReset_status (s : State) : (hardReset s).status = Status.reset := rfl
@[simp] theorem hardReset_din (s : State) : (hardReset s).din = 0#32 := rfl
@[simp] theorem hardReset_dout (s : State) : (hardReset s).dout = 0#32 := rfl
@[simp] theorem hardReset_bytecnt (s : State) : (hardReset s).bytecnt = 0#32 := rfl
@[simp] theorem hardReset_symcnt (s : State) : (hardReset s).symcnt = 0#32 := rfl
@[simp] theorem hardReset_resetSeen (s : State) : (hardReset s).resetSeen = true := rfl
@[simp] theorem hardReset_pending (s : State) : (hardReset s).pending = s.pending := rfl
@[simp] theorem hardReset_reads (s : State) : (hardReset s).reads = s.reads := rfl

@[simp] theorem returnToHost_ctrl (v : Word) (s : State) : (returnToHost v s).ctrl = s.ctrl := rfl
@[simp] theorem returnToHost_status (v : Word) (s : State) : (returnToHost v s).status = s.status := rfl
@[simp] theorem returnToHost_din (v : Word) (s : State) : (returnToHost v s).din = s.din := rfl
@[simp] theorem returnToHost_dout (v : Word) (s : State) : (returnToHost v s).dout = s.dout := rfl
@[simp] theorem returnToHost_bytecnt (v : Word) (s : State) : (returnToHost v s).bytecnt = s.bytecnt := rfl
@[simp] theorem returnToHost_symcnt (v : Word) (s : State) : (returnToHost v s).symcnt = s.symcnt := rfl
@[simp] theorem returnToHost_resetSeen (v : Word) (s : State) : (returnToHost v s).resetSeen = s.resetSeen := rfl
@[simp] theorem returnToHost_pending (v : Word) (s : State) : (returnToHost v s).pending = s.pending := rfl
@[simp] theorem returnToHost_reads (v : Word) (s : State) : (returnToHost v s).reads = s.reads ++ [v] := rfl

@[simp] theorem writeReg_ctrl (r : Reg) (v : Word) (s : State) : (writeReg r v s).ctrl = (if r = .ctrl then v.setWidth 3 else s.ctrl) := by
  cases r <;> rfl
@[simp] theorem writeReg_status (r : Reg) (v : Word) (s : State) : (writeReg r v s).status = s.status := by
  cases r <;> rfl
@[simp] theorem writeReg_din (r : Reg) (v : Word) (s : State) : (writeReg r v s).din = (if r = .din then v else s.din) := by
  cases r <;> rfl
@[simp] theorem writeReg_dout (r : Reg) (v : Word) (s : State) : (writeReg r v s).dout = s.dout := by
  cases r <;> rfl
@[simp] theorem writeReg_bytecnt (r : Reg) (v : Word) (s : State) : (writeReg r v s).bytecnt = s.bytecnt := by
  cases r <;> rfl
@[simp] theorem writeReg_symcnt (r : Reg) (v : Word) (s : State) : (writeReg r v s).symcnt = s.symcnt := by
  cases r <;> rfl
@[simp] theorem writeReg_resetSeen (r : Reg) (v : Word) (s : State) : (writeReg r v s).resetSeen = s.resetSeen := by
  cases r <;> rfl
@[simp] theorem writeReg_pending (r : Reg) (v : Word) (s : State) : (writeReg r v s).pending = s.pending := by
  cases r <;> rfl
@[simp] theorem writeReg_reads (r : Reg) (v : Word) (s : State) : (writeReg r v s).reads = s.reads := by
  cases r <;> rfl

/-! The option bits are read from CTRL, which these operations keep. -/

@[simp] theorem raiseError_fast (code : ErrCode) (s : State) : (raiseError code s).fast = s.fast := rfl
@[simp] theorem raiseError_nopad (code : ErrCode) (s : State) : (raiseError code s).nopad = s.nopad := rfl
@[simp] theorem raiseError_errie (code : ErrCode) (s : State) : (raiseError code s).errie = s.errie := rfl

@[simp] theorem clearErrorRecord_fast (s : State) : (clearErrorRecord s).fast = s.fast := rfl
@[simp] theorem clearErrorRecord_nopad (s : State) : (clearErrorRecord s).nopad = s.nopad := rfl
@[simp] theorem clearErrorRecord_errie (s : State) : (clearErrorRecord s).errie = s.errie := rfl

@[simp] theorem writeResult_fast (d : Word) (n p : Nat) (s : State) : (writeResult d n p s).fast = s.fast := rfl
@[simp] theorem writeResult_nopad (d : Word) (n p : Nat) (s : State) : (writeResult d n p s).nopad = s.nopad := rfl
@[simp] theorem writeResult_errie (d : Word) (n p : Nat) (s : State) : (writeResult d n p s).errie = s.errie := rfl

@[simp] theorem markFinal_fast (b : Bool) (s : State) : (markFinal b s).fast = s.fast := rfl
@[simp] theorem markFinal_nopad (b : Bool) (s : State) : (markFinal b s).nopad = s.nopad := rfl
@[simp] theorem markFinal_errie (b : Bool) (s : State) : (markFinal b s).errie = s.errie := rfl

@[simp] theorem addCounts_fast (n k : Nat) (s : State) : (addCounts n k s).fast = s.fast := rfl
@[simp] theorem addCounts_nopad (n k : Nat) (s : State) : (addCounts n k s).nopad = s.nopad := rfl
@[simp] theorem addCounts_errie (n k : Nat) (s : State) : (addCounts n k s).errie = s.errie := rfl

@[simp] theorem closeStream_fast (s : State) : (closeStream s).fast = s.fast := rfl
@[simp] theorem closeStream_nopad (s : State) : (closeStream s).nopad = s.nopad := rfl
@[simp] theorem closeStream_errie (s : State) : (closeStream s).errie = s.errie := rfl

@[simp] theorem returnToHost_fast (v : Word) (s : State) : (returnToHost v s).fast = s.fast := rfl
@[simp] theorem returnToHost_nopad (v : Word) (s : State) : (returnToHost v s).nopad = s.nopad := rfl
@[simp] theorem returnToHost_errie (v : Word) (s : State) : (returnToHost v s).errie = s.errie := rfl

end Sys2Proof.Machine
end

