-- ==== Sys2Proof/Laws/Exec.lean ====
section
/-! SUPPORT. What a command can do, said once: for each meaning the states it can answer, and for `exec` the list of
them all. Invariants over commands are derived from these and unfold no meaning. -/

namespace Sys2Proof.Machine

open Sys2Proof

/-- ENCQ either raises LENGTH, with FINAL = 1, or encodes the quantum, with FINAL = 0. -/
theorem execEncq_cases {n : BitVec 2} {s t : State} (h : execEncq n s = .next t) :
    (s.status.final = true ∧ t = raiseError .length s) ∨ (s.status.final = false ∧ t = encodeQuantum n.toNat s) := by
  unfold execEncq at h
  split at h <;> rename_i hf
  · exact .inl ⟨hf, (Host.Outcome.next.inj h).symm⟩
  · exact .inr ⟨by simpa using hf, (Host.Outcome.next.inj h).symm⟩

/-- DECQ either raises the error that `decqError` names or decodes the quantum. -/
theorem execDecq_cases {pc : BitVec 2} {s t : State} (h : execDecq pc s = .next t) :
    (∃ code, decqError pc s = some code ∧ t = raiseError code s) ∨
      (decqError pc s = none ∧ t = decodeQuantum (decodePadCount s.nopad pc s.din) s) := by
  unfold execDecq at h
  split at h <;> rename_i he
  · exact .inl ⟨_, he, (Host.Outcome.next.inj h).symm⟩
  · exact .inr ⟨he, (Host.Outcome.next.inj h).symm⟩

/-- When DECQ raises nothing: the field allowed, the stream open, the pad count in 0..2, and the payload valid unless
FAST = 1. -/
theorem decqError_eq_none {pc : BitVec 2} {s : State} :
    decqError pc s = none ↔
      (s.nopad = true ∨ pc = 0#2) ∧ s.status.final = false ∧ decodePadCount s.nopad pc s.din ≤ 2 ∧
        (s.fast = true ∨ payloadValid (payloadSymbols (decodePadCount s.nopad pc s.din)) s.din = true) := by
  unfold decqError
  cases hn : s.nopad <;> cases hfin : s.status.final <;> cases hfast : s.fast <;> simp only [] <;>
    (repeat' split) <;> simp_all <;> omega

/-- Everything a command can do. -/
theorem exec_cases {i : Instr} {s t : State} (h : exec i s = .next t) :
    (i = .nop ∧ t = s) ∨
    (∃ n, i = .encq n ∧ s.status.final = true ∧ t = raiseError .length s) ∨
    (∃ n, i = .encq n ∧ s.status.final = false ∧ t = encodeQuantum n.toNat s) ∨
    (∃ pc code, i = .decq pc ∧ decqError pc s = some code ∧ t = raiseError code s) ∨
    (∃ pc, i = .decq pc ∧ decqError pc s = none ∧ t = decodeQuantum (decodePadCount s.nopad pc s.din) s) ∨
    (∃ d, (i = .symof ∨ i = .grpof ∨ i = .valid) ∧ t = writeResult d 1 0 s) ∨
    (i = .endStream ∧ t = closeStream s) ∨
    (i = .clrerr ∧ t = clearErrorRecord s) ∨
    (i = .srst ∧ t = resetRegisters s) ∨
    (∃ w, i = .illegal w ∧ t = raiseError .illegalCmd s) := by
  cases i with
  | nop => exact .inl ⟨rfl, (Host.Outcome.next.inj h).symm⟩
  | encq n =>
    rcases execEncq_cases h with ⟨hf, ht⟩ | ⟨hf, ht⟩
    · exact .inr (.inl ⟨n, rfl, hf, ht⟩)
    · exact .inr (.inr (.inl ⟨n, rfl, hf, ht⟩))
  | decq pc =>
    rcases execDecq_cases h with ⟨code, he, ht⟩ | ⟨he, ht⟩
    · exact .inr (.inr (.inr (.inl ⟨pc, code, rfl, he, ht⟩)))
    · exact .inr (.inr (.inr (.inr (.inl ⟨pc, rfl, he, ht⟩))))
  | symof => exact .inr (.inr (.inr (.inr (.inr (.inl ⟨_, .inl rfl, (Host.Outcome.next.inj h).symm⟩)))))
  | grpof => exact .inr (.inr (.inr (.inr (.inr (.inl ⟨_, .inr (.inl rfl), (Host.Outcome.next.inj h).symm⟩)))))
  | valid => exact .inr (.inr (.inr (.inr (.inr (.inl ⟨_, .inr (.inr rfl), (Host.Outcome.next.inj h).symm⟩)))))
  | endStream => exact .inr (.inr (.inr (.inr (.inr (.inr (.inl ⟨rfl, (Host.Outcome.next.inj h).symm⟩))))))
  | clrerr => exact .inr (.inr (.inr (.inr (.inr (.inr (.inr (.inl ⟨rfl, (Host.Outcome.next.inj h).symm⟩)))))))
  | srst => exact .inr (.inr (.inr (.inr (.inr (.inr (.inr (.inr (.inl ⟨rfl, (Host.Outcome.next.inj h).symm⟩))))))))
  | illegal w =>
    exact .inr (.inr (.inr (.inr (.inr (.inr (.inr (.inr (.inr ⟨w, rfl, (Host.Outcome.next.inj h).symm⟩))))))))

end Sys2Proof.Machine
end

