-- ==== Sys2Proof/Laws/HostLoops.lean ====
section
/-! SUPPORT. What one quantum of a host loop does, said once, and the host's absolute addresses. -/

namespace Sys2Proof.Machine

/-- In a ready state an access is performed. -/
theorem perform_access {s : State} (hs : Ready s) (a : HostAccess) : perform (.access a) s = performAccess a s := by
  simp [perform, hs.1, hs.2]

/-- In a ready state a register read is performed and its value recorded. -/
theorem perform_rd {s : State} (hs : Ready s) (r : Reg) : perform (rd r) s = .next (returnToHost (readReg r s) s) := by
  rw [rd, perform_access hs]
  cases r <;> rfl

/-- In a ready state a read by a loop returns the register. -/
theorem issueRead_nil {s : State} (hs : Ready s) (r : Reg) :
    issueRead [] r s = some { value := readReg r s, after := returnToHost (readReg r s) s } := by
  simp [issueRead, issue, perform_rd hs, returnToHost]

/-- In a ready state a command after a write to DIN does what `exec` does, and the read after it returns the register
as the command left it. -/
theorem hostCommand_eq {s t : State} {d : Word} {i : Instr} (hs : Ready s) (hd : decode s.nopad (encode i) = i)
    (hx : exec i { s with din := d } = .next t) (ht : Ready t) (r : Reg) :
    hostCommand d i r s = some { value := readReg r t, after := returnToHost (readReg r t) t } := by
  have h1 : perform (wr .din d) s = .next { s with din := d } := perform_access hs _
  have h2 : perform (command i) { s with din := d } = .next t := by
    have h := perform_access (s := { s with din := d }) hs (.write 0x14 4 (encode i))
    have he : executeWord (encode i) { s with din := d } = exec (decode s.nopad (encode i)) { s with din := d } := rfl
    rw [hd, hx] at he
    exact h.trans he
  simp [hostCommand, issueRead, issue, h1, h2, perform_rd ht, returnToHost]

/-- One quantum of the encode loop whose command leads to the ready state `t`. -/
theorem encodeOne_eq {s t : State} {d : Word} {n : BitVec 2} (hs : Ready s)
    (hd : decode s.nopad (encode (.encq n)) = .encq n) (hx : exec (.encq n) { s with din := d } = .next t)
    (ht : Ready t) :
    encodeOne d n s =
      some (validLanes t.status.word t.dout, returnToHost t.status.word (returnToHost t.dout t)) := by
  have h := issueRead_nil (s := returnToHost t.dout t) ht .status
  simp only [readReg, returnToHost_status] at h
  simp [encodeOne, hostCommand_eq hs hd hx ht, readReg, h]

/-- One quantum of the decode loop whose command leads to the ready state `t`: with ERR = 1 in it the loop stops after
the read of STATUS, otherwise DOUT is read and the rest follows. -/
theorem decodeOne_eq {s t : State} {d : Word} {pc : BitVec 2} (hs : Ready s)
    (hd : decode s.nopad (encode (.decq pc)) = .decq pc) (hx : exec (.decq pc) { s with din := d } = .next t)
    (ht : Ready t) (next : State → DecodeResult) :
    decodeOne d pc s next =
      if t.status.word.getLsbD 0 then .blockError (returnToHost t.status.word t)
      else (next (returnToHost t.dout (returnToHost t.status.word t))).prepend (validLanes t.status.word t.dout) := by
  have h := issueRead_nil (s := returnToHost t.status.word t) ht .dout
  simp only [readReg, returnToHost_dout] at h
  simp only [decodeOne, hostCommand_eq hs hd hx ht, readReg, h]

/-- An access at an absolute address of the host is the access at its offset from B64_BASE, wherever the platform maps
the window (R13, R46; log entry 2). -/
theorem memRead_offset (off size : Nat) : memRead (Config.b64Base + off) size = .access (.read off size) := by
  simp [memRead]

/-- The same of a write. -/
theorem memWrite_offset (off size : Nat) (v : Word) :
    memWrite (Config.b64Base + off) size v = .access (.write off size v) := by
  simp [memWrite]

end Sys2Proof.Machine
end

