-- ==== Sys2Proof/Laws/PerInstr.lean ====
section
/-! SUPPORT. Statements about every command as syntax, one lemma per constructor. -/

namespace Sys2Proof.Laws.EncodeFitsRow

open Sys2Proof

/-- The word of a command fits its row of spec/opcode_table.json; the word of `illegal` is the one it carries. -/
def Statement (i : Instr) : Prop :=
  match i.tableRow? with
  | some r => r.fits (encode i) = true
  | none => ∃ w, i = .illegal w ∧ encode i = w

/-- A command with a row meets the statement when its word fits that row. -/
theorem fits_of_row (i : Instr) (r : OpcodeRow) (hr : i.tableRow? = some r) (h : r.fits (encode i) = true) :
    Statement i := by
  simp only [Statement, hr, h]

theorem nop : Statement .nop := fits_of_row _ _ rfl (by decide)
theorem encq (n : BitVec 2) : Statement (.encq n) := fits_of_row _ _ rfl (by revert n; decide)
theorem decq (pc : BitVec 2) : Statement (.decq pc) := fits_of_row _ _ rfl (by revert pc; decide)
theorem symof : Statement .symof := fits_of_row _ _ rfl (by decide)
theorem grpof : Statement .grpof := fits_of_row _ _ rfl (by decide)
theorem valid : Statement .valid := fits_of_row _ _ rfl (by decide)
theorem endStream : Statement .endStream := fits_of_row _ _ rfl (by decide)
theorem clrerr : Statement .clrerr := fits_of_row _ _ rfl (by decide)
theorem srst : Statement .srst := fits_of_row _ _ rfl (by decide)
theorem illegal (w : Word) : Statement (.illegal w) := ⟨w, rfl, rfl⟩

end Sys2Proof.Laws.EncodeFitsRow
end

