-- ==== Sys2Proof/Laws/Step.lean ====
section
/-! SUPPORT. What a step can do, said once: the register map read both ways, which accesses are admitted, and the list
of the next states a step can answer. -/

namespace Sys2Proof.Machine

open Sys2Proof

/-- The register found at a register's offset is that register. -/
@[simp] theorem regAt_offset (r : Reg) : regAt r.offset = some r := by
  cases r <;> rfl

/-- A register is found at its own offset only. -/
theorem regAt_eq_some {off : Int} {r : Reg} (h : regAt off = some r) : off = r.offset := by
  unfold regAt at h
  repeat' split at h
  all_goals first | (cases h; assumption) | cases h

/-- A word access at a register's offset is admitted. -/
@[simp] theorem admission_offset (r : Reg) : admission r.offset 4 = .ok r := by
  cases r <;> rfl

/-- Only word accesses at a register's offset are admitted. -/
theorem admission_eq_ok {off : Int} {size : Nat} {r : Reg} (h : admission off size = .ok r) :
    size = 4 ∧ off = r.offset := by
  unfold admission at h
  split at h
  · cases h
  · rename_i hs
    split at h
    · cases h
    · split at h
      · rename_i r' hr
        cases h
        exact ⟨by simpa [Config.accessBytes] using hs, regAt_eq_some hr⟩
      · cases h

/-- Everything an access can do when it answers a next state. -/
theorem performAccess_cases {a : HostAccess} {s t : State} (h : performAccess a s = .next t) :
    (∃ r : Reg, a = .read r.offset 4 ∧ t = returnToHost (readReg r s) s) ∨
    (∃ (r : Reg) (v : Word), r ≠ .cmd ∧ a = .write r.offset 4 v ∧ t = writeReg r v s) ∨
    (∃ w : Word, a = .write 0x14 4 w ∧ exec (decode s.nopad w) s = .next t) := by
  cases a with
  | read off size =>
    simp only [performAccess] at h
    split at h
    · cases h
    · rename_i r hr
      obtain ⟨rfl, rfl⟩ := admission_eq_ok hr
      exact .inl ⟨r, rfl, (Host.Outcome.next.inj h).symm⟩
  | write off size v =>
    simp only [performAccess] at h
    split at h
    · cases h
    · rename_i hr
      obtain ⟨rfl, rfl⟩ := admission_eq_ok hr
      exact .inr (.inr ⟨v, rfl, h⟩)
    · rename_i r hne hr
      obtain ⟨rfl, rfl⟩ := admission_eq_ok hr
      exact .inr (.inl ⟨r, v, fun hc => hne (hc ▸ rfl), rfl, (Host.Outcome.next.inj h).symm⟩)

/-- Everything a step can do when it answers a next state: nothing pending; a reset; or, after a reset and with no
reserved value in STATUS, a register read, a register write, or a command. -/
theorem step_cases {s t : State} (h : step s = .next t) :
    (s.pending = [] ∧ t = s) ∨
    ∃ e rest, s.pending = e :: rest ∧
      ((∃ lost, e = .rst lost ∧ t = hardReset { s with pending := rest }) ∨
       (s.resetSeen = true ∧ s.status.reservedValue = false ∧
        ((∃ r : Reg, e = rd r ∧ t = returnToHost (readReg r s) { s with pending := rest }) ∨
         (∃ (r : Reg) (v : Word), r ≠ .cmd ∧ e = wr r v ∧ t = writeReg r v { s with pending := rest }) ∨
         (∃ w : Word, e = wr .cmd w ∧ exec (decode s.nopad w) { s with pending := rest } = .next t)))) := by
  unfold step at h
  split at h
  · rename_i hp
    exact .inl ⟨hp, (Host.Outcome.next.inj h).symm⟩
  · rename_i e rest hp
    refine .inr ⟨e, rest, hp, ?_⟩
    cases e with
    | rst lost => exact .inl ⟨lost, rfl, (Host.Outcome.next.inj h).symm⟩
    | access a =>
      simp only [perform] at h
      split at h
      · cases h
      · rename_i hseen
        split at h
        · cases h
        · rename_i hres
          refine .inr ⟨by simpa using hseen, by simpa using hres, ?_⟩
          rcases performAccess_cases h with ⟨r, rfl, rfl⟩ | ⟨r, v, hne, rfl, rfl⟩ | ⟨w, rfl, hx⟩
          · refine .inl ⟨r, rfl, ?_⟩
            cases r <;> rfl
          · exact .inr (.inl ⟨r, v, hne, rfl, rfl⟩)
          · exact .inr (.inr ⟨w, rfl, hx⟩)

end Sys2Proof.Machine
end

