-- ==== Sys2Proof/Tests/Slice0.lean ====
section
/-! SUPPORT. The model's own tests. Expected values come from spec/95_test_vectors.md (the section is named at each
test) or from the encodings of spec/30_encoding.md; then a witness for each obligation with hypotheses. -/

namespace Sys2Proof.Tests

open Sys2Proof Sys2Proof.Machine

/-! ## Helpers -/

/-- The state of a test vector: reset, with CTRL and DIN as given. -/
def loaded (ctrl : BitVec 3) (din : Word) : State := { State.reset with ctrl := ctrl, din := din }

/-- As `loaded`, after a partial quantum of one byte: FINAL = 1, BYTECNT 1, SYMCNT 4 (95_test_vectors.md 2.3). -/
def afterFinal (ctrl : BitVec 3) (din : Word) : State :=
  { loaded ctrl din with
    dout := 0x5A673D3D#32, bytecnt := 1#32, symcnt := 4#32
    status := { Status.reset with final := true, padcnt := 2#2, nout := 4#3 } }

/-- As `loaded`, with LENGTH recorded. -/
def afterError (ctrl : BitVec 3) (din : Word) : State :=
  { loaded ctrl din with status := { Status.reset with err := true, ecode := 4#3 } }

/-- The state with one host event pending. -/
def before (e : HostEvent) (s : State) : State := { s with pending := [e] }

/-- The next state, if there is one. -/
def nextOf (o : Host.Outcome State Fault Refusal) : Option State :=
  match o with
  | .next s => some s
  | _ => none

/-- The columns of a test vector: DOUT, S, BYTECNT, SYMCNT. -/
def columns (o : Host.Outcome State Fault Refusal) : Option (Word × Word × Word × Word) :=
  (nextOf o).map fun s => (s.dout, s.status.word, s.bytecnt, s.symcnt)

/-- The values that the host's reads returned. -/
def readsOf (o : Host.Outcome State Fault Refusal) : Option (List Word) := (nextOf o).map (·.reads)

/-- The refusal, if the outcome is one. -/
def refusalOf (o : Host.Outcome State Fault Refusal) : Option Refusal :=
  match o with
  | .refused why => some why
  | _ => none

/-! ## Well-formedness: an ill-formed term for each check -/

/-- R67, last clause: a nonzero pad count needs NOPAD = 1. -/
theorem test_decq_field_needs_nopad :
    Instr.wellFormed false (.decq 1#2) = false ∧ Instr.wellFormed true (.decq 1#2) = true ∧
      Instr.wellFormed false (.decq 0#2) = true := by decide

/-- A legal word is not the word of `illegal`. -/
theorem test_illegal_refuses_legal_word :
    Instr.wellFormed false (.illegal 0x00000031#32) = false ∧
      Instr.wellFormed true (.illegal 0x00000012#32) = false := by decide

/-- R67, clause by clause (95_test_vectors.md 2.6). -/
theorem test_illegal_accepts_each_clause :
    Instr.wellFormed true (.illegal 0x00000009#32) = true ∧ Instr.wellFormed true (.illegal 0x80000000#32) = true ∧
      Instr.wellFormed true (.illegal 0x00000013#32) = true ∧
      Instr.wellFormed false (.illegal 0x00000032#32) = true := by decide

/-! ## Decoding: words written out from R63 and R66, `{RSV[25:0], F[1:0], OP[3:0]}` -/

theorem test_decode_nop : decode false 0b00000000000000000000000000_00_0000#32 = .nop := by decide
theorem test_decode_encq : decode false 0b00000000000000000000000000_11_0001#32 = .encq 3#2 := by decide
theorem test_decode_decq : decode false 0b00000000000000000000000000_00_0010#32 = .decq 0#2 := by decide
theorem test_decode_decq_pc : decode true 0b00000000000000000000000000_10_0010#32 = .decq 2#2 := by decide
theorem test_decode_symof : decode false 0b00000000000000000000000000_00_0011#32 = .symof := by decide
theorem test_decode_grpof : decode false 0b00000000000000000000000000_00_0100#32 = .grpof := by decide
theorem test_decode_valid : decode false 0b00000000000000000000000000_00_0101#32 = .valid := by decide
theorem test_decode_end : decode false 0b00000000000000000000000000_00_0110#32 = .endStream := by decide
theorem test_decode_clrerr : decode false 0b00000000000000000000000000_00_0111#32 = .clrerr := by decide
theorem test_decode_srst : decode false 0b00000000000000000000000000_00_1000#32 = .srst := by decide

/-- Reserved opcode, misplaced F, RSV bit (95_test_vectors.md 2.6). -/
theorem test_decode_illegal :
    decode true 0b00000000000000000000000000_00_1001#32 = .illegal 0x00000009#32 ∧
      decode true 0b00000000000000000000000000_01_0110#32 = .illegal 0x00000016#32 ∧
      decode true 0b00000000000000000000000001_00_0001#32 = .illegal 0x00000041#32 := by decide

theorem test_decodeTableWord :
    decodeTableWord 32 0x00000031 = some (.encq 3#2) ∧ decodeTableWord 32 0x00000022 = some (.decq 2#2) ∧
      decodeTableWord 32 0x0000000A = some (.illegal 0x0000000A#32) := by decide

/-! ## Commands (95_test_vectors.md 2.1 to 2.7), columns DOUT, S, BYTECNT, SYMCNT -/

/-- 2.1: the first and last entries and a range edge; DIN[31:6] is ignored. -/
theorem test_symof :
    columns (exec .symof (loaded 0 0xFFFFFFC0#32)) = some (0x00000041#32, 0x080#32, 0#32, 0#32) ∧
      columns (exec .symof (loaded 0 0x0000003D#32)) = some (0x00000039#32, 0x080#32, 0#32, 0#32) ∧
      columns (exec .symof (loaded 0 0x0000003F#32)) = some (0x0000002F#32, 0x080#32, 0#32, 0#32) := by decide

/-- 2.1: the tag tells `A` from an invalid byte; 0xC1 is not folded to `A`. -/
theorem test_grpof :
    columns (exec .grpof (loaded 0 0xFFFFFF41#32)) = some (0x00000100#32, 0x080#32, 0#32, 0#32) ∧
      columns (exec .grpof (loaded 0 0x0000007A#32)) = some (0x00000133#32, 0x080#32, 0#32, 0#32) ∧
      columns (exec .grpof (loaded 0 0x000000C1#32)) = some (0x00000000#32, 0x080#32, 0#32, 0#32) := by decide

/-- 2.1: DIN[31:8] is ignored; the pad byte is not in the alphabet. -/
theorem test_valid :
    columns (exec .valid (loaded 0 0x1234562F#32)) = some (0x00000001#32, 0x080#32, 0#32, 0#32) ∧
      columns (exec .valid (loaded 0 0x0000003D#32)) = some (0x00000000#32, 0x080#32, 0#32, 0#32) := by decide

/-- 2.3: each N with NOPAD = 0, unused lanes ignored. -/
theorem test_encq_padded :
    columns (exec (.encq 3) (loaded 0 0x666F6F00#32)) = some (0x5A6D3976#32, 0x200#32, 3#32, 4#32) ∧
      columns (exec (.encq 2) (loaded 0 0x666FFFFF#32)) = some (0x5A6D383D#32, 0x230#32, 2#32, 4#32) ∧
      columns (exec (.encq 1) (loaded 0 0x66FFFFFF#32)) = some (0x5A673D3D#32, 0x250#32, 1#32, 4#32) ∧
      columns (exec (.encq 0) (loaded 0 0x12345678#32)) = some (0x00000000#32, 0x000#32, 0#32, 0#32) := by decide

/-- 2.3: NOPAD = 1 leaves the pads out, and LENGTH after a partial quantum. -/
theorem test_encq_nopad_and_length :
    columns (exec (.encq 1) (loaded 2 0x66000000#32)) = some (0x5A670000#32, 0x150#32, 1#32, 2#32) ∧
      columns (exec (.encq 2) (loaded 2 0x666F0000#32)) = some (0x5A6D3800#32, 0x1B0#32, 2#32, 3#32) ∧
      columns (exec (.encq 1) (afterFinal 0 0x66000000#32)) = some (0x00000000#32, 0x019#32, 1#32, 4#32) := by decide

/-- 1.1 and 2.4: `Zg==`, `Zm8=`, `Zm9v`, and with FAST = 1 `Z!g=`. -/
theorem test_decq_decodes :
    columns (exec (.decq 0) (loaded 0 0x5A673D3D#32)) = some (0x66000000#32, 0x0D0#32, 1#32, 4#32) ∧
      columns (exec (.decq 0) (loaded 0 0x5A6D383D#32)) = some (0x666F0000#32, 0x130#32, 2#32, 4#32) ∧
      columns (exec (.decq 0) (loaded 0 0x5A6D3976#32)) = some (0x666F6F00#32, 0x180#32, 3#32, 4#32) ∧
      columns (exec (.decq 0) (loaded 1 0x5A21673D#32)) = some (0x64080000#32, 0x130#32, 2#32, 4#32) := by decide

/-- 2.4: `!===`, `Z=g=`, `A===` after a padded quantum, and with NOPAD = 1 `Zm9v` with PC 1 and PC 3. -/
theorem test_decq_errors_and_nopad :
    columns (exec (.decq 0) (loaded 0 0x213D3D3D#32)) = some (0x00000000#32, 0x005#32, 0#32, 0#32) ∧
      columns (exec (.decq 0) (loaded 0 0x5A3D673D#32)) = some (0x00000000#32, 0x007#32, 0#32, 0#32) ∧
      columns (exec (.decq 0) (afterFinal 0 0x413D3D3D#32)) = some (0x00000000#32, 0x019#32, 1#32, 4#32) ∧
      columns (exec (.decq 1) (loaded 2 0x5A6D3976#32)) = some (0x666F0000#32, 0x130#32, 2#32, 3#32) ∧
      columns (exec (.decq 3) (loaded 2 0x5A6D3976#32)) = some (0x00000000#32, 0x005#32, 0#32, 0#32) := by decide

/-- 2.5: NOP changes nothing. -/
theorem test_nop : nextOf (exec .nop (afterFinal 7 0x66000000#32)) = some (afterFinal 7 0x66000000#32) := by decide

/-- 2.5: END keeps DOUT, NOUT and PADCNT. -/
theorem test_end :
    columns (exec .endStream (afterFinal 0 0x66000000#32)) = some (0x5A673D3D#32, 0x240#32, 0#32, 0#32) := by decide

/-- 2.5: CLRERR keeps FINAL and the counters. -/
theorem test_clrerr :
    columns (exec .clrerr (raiseError .length (afterFinal 0 0x66000000#32))) =
      some (0x00000000#32, 0x010#32, 1#32, 4#32) := by decide

/-- 2.5: SRST resets CTRL and DIN too. -/
theorem test_srst : nextOf (exec .srst (afterFinal 7 0x66000000#32)) = some State.reset := by decide

/-- 2.6: an illegal word from reset, and ILLEGAL_CMD before LENGTH with FINAL kept. -/
theorem test_illegal :
    columns (executeWord 0x0000000A#32 (loaded 0 0#32)) = some (0x00000000#32, 0x003#32, 0#32, 0#32) ∧
      columns (executeWord 0x00000012#32 (loaded 0 0x5A6D3976#32)) = some (0x00000000#32, 0x003#32, 0#32, 0#32) ∧
      columns (executeWord 0x00000019#32 (afterFinal 0 0x66000000#32)) =
        some (0x00000000#32, 0x013#32, 1#32, 4#32) := by decide

/-- 2.5: a second error sets EOVF and keeps the first code. -/
theorem test_second_error_sets_eovf :
    columns (exec (.encq 2) (raiseError .length (afterFinal 0 0x66000000#32))) =
      some (0x00000000#32, 0x419#32, 1#32, 4#32) := by decide

/-- 2.7: irq after an illegal word, with and without ERRIE. -/
theorem test_irq :
    (nextOf (exec (.illegal 9#32) (loaded 4 0#32))).map (·.irq) = some true ∧
      (nextOf (exec (.illegal 9#32) (loaded 0 0#32))).map (·.irq) = some false := by decide

/-- 2.9: the counters wrap. -/
theorem test_counters_wrap :
    columns (exec (.encq 3) { loaded 0 0x666F6F00#32 with bytecnt := 0xFFFFFFFE#32, symcnt := 0xFFFFFFFE#32 }) =
      some (0x5A6D3976#32, 0x200#32, 0x00000001#32, 0x00000002#32) := by decide

/-- 2.2: regrouping in both directions. -/
theorem test_regroup :
    regroup8to6 0x4D 0x61 0x6E 3 = ⟨19, 22, 5, 46⟩ ∧ regroup8to6 0x66 0x6F 0xFF 2 = ⟨25, 38, 60, 0⟩ ∧
      regroup6to8 ⟨25, 33, 0, 0⟩ 1 = ⟨0x66, 0x00, 0x00⟩ ∧ regroup6to8 ⟨62, 63, 62, 63⟩ 3 = ⟨0xFB, 0xFF, 0xBF⟩ := by
  decide

/-- 1.1, quantum by quantum: `foob` regroups to the groups of `Zm9vYg`. -/
theorem test_whole_sequence :
    bytesToGroups [0x66, 0x6F, 0x6F, 0x62] = [25, 38, 61, 47, 24, 32] := by decide

/-! ## The register port (95_test_vectors.md 2.8) -/

/-- CTRL keeps three bits; ID reads its constant; CMD reads 0. -/
theorem test_reads :
    readsOf (step (before (rd .ctrl) (loaded 7 0#32))) = some [0x00000007#32] ∧
      readsOf (step (before (rd .id) (loaded 0 0#32))) = some [0x42363401#32] ∧
      readsOf (step (before (rd .cmd) (loaded 0 5#32))) = some [0x00000000#32] ∧
      readsOf (step (before (rd .status) (afterFinal 0 0#32))) = some [0x250#32] := by decide

/-- A write to CTRL stores bits 2:0; a write to a read-only register does nothing. -/
theorem test_writes :
    nextOf (step (before (wr .ctrl 0xFFFFFFFF#32) (loaded 0 0#32))) = some (loaded 7 0#32) ∧
      nextOf (step (before (wr .din 0x12345678#32) (loaded 0 0#32))) = some (loaded 0 0x12345678#32) ∧
      nextOf (step (before (wr .dout 1#32) (loaded 0 0#32))) = some State.reset ∧
      nextOf (step (before (wr .status 0xFFFFFFFF#32) (afterFinal 0 0#32))) = some (afterFinal 0 0#32) := by decide

/-- Accesses that R51 and R55 do not admit. -/
theorem test_refused_accesses :
    refusalOf (step (before (.access (.read 0x00 1)) State.reset)) = some .accessSize ∧
      refusalOf (step (before (.access (.write 0x02 4 0#32)) State.reset)) = some .accessMisaligned ∧
      refusalOf (step (before (.access (.read 0x20 4)) State.reset)) = some .accessOutsideWindow ∧
      refusalOf (step (before (.access (.read (-4) 4)) State.reset)) = some .accessOutsideWindow ∧
      refusalOf (step (before (rd .id) { State.reset with resetSeen := false })) = some .accessBeforeReset := by decide

/-- R147: the reset input, and the access it loses. -/
theorem test_reset_event :
    nextOf (step (before (.rst (some (.write 0x0C 4 1#32))) (afterFinal 7 5#32))) = some State.reset := by decide

/-- R146: what one clock edge's inputs are. -/
theorem test_bus_cycle :
    BusCycle.event? ⟨false, true, true, 5#3, 0x31#32⟩ = some (command (.encq 3)) ∧
      BusCycle.event? ⟨false, true, false, 4#3, 0#32⟩ = some (rd .dout) ∧
      BusCycle.event? ⟨false, false, true, 5#3, 0x31#32⟩ = none ∧
      BusCycle.event? ⟨true, true, false, 4#3, 0#32⟩ = some (.rst (some (.read 0x10 4))) := by decide

/-- R74, and P1 of section 3: `LDQ "foo"` and `LDQ "b"`. -/
theorem test_ldq :
    ldq ['f', 'o', 'o'] = wr .din 0x666F6F00#32 ∧ ldq ['b'] = wr .din 0x62000000#32 := by decide

/-- A word placed for the next step runs as the first command after reset. -/
theorem test_fetch_word :
    (nextOf (step (State.reset.withFetchWord 32 0x00000003))).map (fun s => (s.dout, s.pending)) =
      some (0x00000041#32, []) := by decide

/-! ## Whole texts (95_test_vectors.md 1.1, P4 and P5 of section 3) -/

/-- `fooba` padded and unpadded, and the empty text. -/
theorem test_host_encode :
    (hostEncode 0xFF [0x66, 0x6F, 0x6F, 0x62, 0x61] (loaded 0 0#32)).map (·.1) =
        some [0x5A, 0x6D, 0x39, 0x76, 0x59, 0x6D, 0x45, 0x3D] ∧
      (hostEncode 0xFF [0x66, 0x6F, 0x6F, 0x62, 0x61] (loaded 2 0#32)).map (·.1) =
        some [0x5A, 0x6D, 0x39, 0x76, 0x59, 0x6D, 0x45] ∧
      (hostEncode 0xFF [] (loaded 0 0#32)).map (·.1) = some [] := by decide

/-- The bytes of a decode result. -/
def bytesOf (r : DecodeResult) : Option (List Byte) :=
  match r with
  | .done out _ => some out
  | _ => none

/-- `Zm9vYg==`, the stripped `Zm9vYmE`, a stripped fragment of one symbol (R117), and a length that is no multiple of
4 (R157). -/
theorem test_host_decode :
    bytesOf (hostDecodePadded [0x5A, 0x6D, 0x39, 0x76, 0x59, 0x67, 0x3D, 0x3D] (loaded 0 0#32)) =
        some [0x66, 0x6F, 0x6F, 0x62] ∧
      bytesOf (hostDecodeStripped 0xFF [0x5A, 0x6D, 0x39, 0x76, 0x59, 0x6D, 0x45] (loaded 2 0#32)) =
        some [0x66, 0x6F, 0x6F, 0x62, 0x61] ∧
      bytesOf (hostDecodeStripped 0xFF [0x5A] (loaded 2 0#32)) = none ∧
      hostDecodePadded [0x5A, 0x67, 0x3D] (loaded 0 0#32) = .lengthMismatch := by decide

/-- The values that the host had read when a decode loop stopped on an error. -/
def readsAtError (r : DecodeResult) : Option (List Word) :=
  match r with
  | .blockError after => some after.reads
  | _ => none

/-- R117, 2.4: `Z=g=` stops the loop after STATUS is read, before DOUT is; a good quantum before it read both. -/
theorem test_decode_stops_before_dout :
    readsAtError (hostDecodePadded [0x5A, 0x3D, 0x67, 0x3D] (loaded 0 0#32)) = some [0x007#32] ∧
      readsAtError (hostDecodePadded [0x5A, 0x6D, 0x39, 0x76, 0x5A, 0x3D, 0x67, 0x3D] (loaded 0 0#32)) =
        some [0x180#32, 0x666F6F00#32, 0x007#32] := by decide

/-- P1 of section 3: the encode loop on `foob` reads DOUT and STATUS of each quantum. -/
theorem test_encode_reads :
    (hostEncode 0x00 [0x66, 0x6F, 0x6F, 0x62] (loaded 0 0#32)).map (·.2.reads) =
      some [0x5A6D3976#32, 0x200#32, 0x59673D3D#32, 0x250#32] := by decide

/-! ## Witnesses: for each obligation with hypotheses, states and operands that meet them -/

/-- Each N of R86's range, its ends included. -/
theorem witness_RegroupToGroupsSlicesTheBitStream : 0 ≤ 3 ∧ 3 ≤ 3 := by decide

/-- The ends of the range of a. -/
theorem witness_RegroupToBytesSlicesTheBitStream : (1 ≤ 1 ∧ 1 ≤ 3) ∧ (1 ≤ 3 ∧ 3 ≤ 3) := by decide

theorem witness_RegroupingRoundTripsAQuantum : (1 ≤ 1 ∧ 1 ≤ 3) ∧ (1 ≤ 3 ∧ 3 ≤ 3) := by decide

/-- R84's and R77's clauses: a DIN for each byte named. -/
theorem witness_GrpofGivesTheTaggedGroup :
    (loaded 0 0xFFFFFF41#32).din.extractLsb' 0 8 = 0x41#8 ∧ (loaded 0 0x3D#32).din.extractLsb' 0 8 = 0x3D#8 ∧
      (loaded 0 0x21#32).din.extractLsb' 0 8 = 0x21#8 ∧ (loaded 0 0xC1#32).din.extractLsb' 0 8 = 0xC1#8 ∧
      (loaded 0 0x2F#32).din.extractLsb' 0 8 = 0x2F#8 ∧ (loaded 0 0x67#32).din.extractLsb' 0 8 = 0x67#8 := by decide

theorem witness_ForwardLutIsTheRomTable :
    25#6 ≤ 25#6 ∧ (26#6 ≤ 26#6 ∧ 26#6 ≤ 51#6) ∧ (26#6 ≤ 51#6 ∧ 51#6 ≤ 51#6) ∧ (52#6 ≤ 61#6 ∧ 61#6 ≤ 61#6) := by decide

theorem witness_ValidityPredicateHoldsForTheAlphabet : 0x80#8 ≤ 0x80#8 ∧ 0x80#8 ≤ 0xFF#8 := by decide

theorem witness_ReverseLutGivesGroupsAndZero :
    (0x41#8 ≤ 0x5A#8 ∧ 0x5A#8 ≤ 0x5A#8) ∧ (0x61#8 ≤ 0x61#8 ∧ 0x61#8 ≤ 0x7A#8) ∧
      (0x30#8 ≤ 0x39#8 ∧ 0x39#8 ≤ 0x39#8) ∧ isValidSymbol 0x5B#8 = false := by decide

theorem witness_LutsAreInverseOnTheAlphabet : isValidSymbol 0x7A#8 = true := by decide

theorem witness_ForwardLutImageIsTheValidBytes : symbolOf 63#6 = symbolOf 63#6 := by decide

/-- Both clauses: an open and a closed stream. -/
theorem witness_EncqEncodesTheQuantum :
    (afterFinal 0 0#32).status.final = true ∧ (loaded 0 0#32).status.final = false := by decide

theorem witness_EncqResultsRowByRow :
    ((loaded 0 0#32).status.final = false ∧ (loaded 0 0#32).nopad = false) ∧
      ((loaded 2 0#32).status.final = false ∧ (loaded 2 0#32).nopad = true) := by decide

/-- No pad, and each number of pads. -/
theorem witness_TrailingPadsScanFromTheEnd :
    (0x76#8 ≠ 0x3D#8) ∧ trailingPads 0x5A6D3976#32 = 0 ∧ trailingPads 0x5A6D383D#32 = 1 ∧
      trailingPads 0x5A673D3D#32 = 2 ∧ trailingPads 0x413D3D3D#32 = 3 ∧ trailingPads 0x3D3D3D3D#32 = 4 := by decide

/-- A state for each of the five outcomes of DECQ: the fourth is `Z=g=`, and `Zg==` decodes at the boundary p = 2. -/
theorem witness_DecqDecodesTheQuantum :
    ((loaded 0 0#32).nopad = false ∧ 1#2 ≠ 0#2) ∧
      ((afterFinal 0 0#32).nopad = false ∧ (afterFinal 0 0#32).status.final = true) ∧
      ((loaded 0 0x413D3D3D#32).status.final = false ∧ 3 ≤ trailingPads 0x413D3D3D#32) ∧
      ((loaded 2 0#32).nopad = true ∧ 3 ≤ (3#2).toNat) ∧
      ((loaded 0 0x5A3D673D#32).fast = false ∧ trailingPads 0x5A3D673D#32 < 3 ∧
        ∃ i, i < 4 - trailingPads 0x5A3D673D#32 ∧ isValidSymbol (lane 0x5A3D673D#32 i) = false) ∧
      (trailingPads 0x5A673D3D#32 < 3 ∧
        ¬ ∃ i, i < 4 - trailingPads 0x5A673D3D#32 ∧ isValidSymbol (lane 0x5A673D3D#32 i) = false) := by decide

/-- `Zg==` and `Zh==`. -/
theorem witness_DecqDropsNonCanonicalTailBits :
    (∃ t, exec (.decq 0#2) (loaded 0 0x5A673D3D#32) = .next t ∧ t.status.nout ≠ 0#3 ∧ t.status.padcnt = 2#2) ∧
      lane 0x5A683D3D#32 0 = lane 0x5A673D3D#32 0 ∧ lane 0x5A683D3D#32 2 = lane 0x5A673D3D#32 2 ∧
      lane 0x5A683D3D#32 3 = lane 0x5A673D3D#32 3 ∧ isValidSymbol (lane 0x5A683D3D#32 1) = true ∧
      groupOf (lane 0x5A683D3D#32 1) = 33#6 ∧ groupOf (lane 0x5A673D3D#32 1) = 32#6 ∧
      ∀ k, 4 ≤ k → (33#6).getLsbD k = (32#6).getLsbD k := by
  refine ⟨⟨_, rfl, by decide, by decide⟩, by decide, by decide, by decide, by decide, by decide, by decide, ?_⟩
  intro k hk
  by_cases h : k < 6
  · interval_cases k <;> decide
  · rw [BitVec.getLsbD_of_ge _ _ (by omega), BitVec.getLsbD_of_ge _ _ (by omega)]

theorem witness_EncodedQuantumDecodesBack :
    1#2 ≠ 0#2 ∧ 3#2 ≠ 0#2 ∧ (loaded 0 0x66000000#32).status.final = false := by decide

theorem witness_DecodedLengthFollowsTheSymbolCount :
    let s := { loaded 0 0x596D453D#32 with bytecnt := 3#32, symcnt := 4#32 }
    s.nopad = false ∧ s.symcnt.toNat % 4 = 0 ∧ s.bytecnt.toNat = 3 * (s.symcnt.toNat / 4) ∧
      s.symcnt.toNat + 4 < 2 ^ 32 ∧ ∃ t, exec (.decq 0#2) s = .next t ∧ t.status.nout ≠ 0#3 :=
  ⟨by decide, by decide, by decide, by decide, _, rfl, by decide⟩

theorem witness_RaiseErrorRecordsOnlyTheError :
    (loaded 0 0#32).status.err = false ∧ (afterError 0 0#32).status.err = true := by decide

/-- One word for each defect. -/
theorem witness_IllegalWordRaisesIllegalCmd :
    9 ≤ ((0x09#32).extractLsb' 0 4).toNat ∧ (0x40#32).extractLsb' 6 26 ≠ 0#26 ∧
      ((0x13#32).extractLsb' 4 2 ≠ 0#2 ∧ ((0x13#32).extractLsb' 0 4).toNat = 3) ∧
      (((0x12#32).extractLsb' 0 4).toNat = 2 ∧ (0x12#32).extractLsb' 4 2 ≠ 0#2 ∧ (loaded 0 0#32).nopad = false) := by
  decide

/-- A word and a state for each clause: ILLEGAL_CMD, LENGTH, PAD_RANGE, INVALID_SYMBOL, none. -/
theorem witness_ErrorsAreRaisedInPriorityOrder :
    isIllegalWord false 0x19#32 = true ∧
      (isIllegalWord false 0x01#32 = false ∧ ((0x01#32).extractLsb' 0 4).toNat = 1 ∧
        (afterFinal 0 0#32).status.final = true) ∧
      (isIllegalWord false 0x02#32 = false ∧ ((0x02#32).extractLsb' 0 4).toNat = 2 ∧
        (loaded 0 0x213D3D3D#32).status.final = false ∧ 3 ≤ trailingPads 0x213D3D3D#32) ∧
      ((loaded 0 0x5A3D673D#32).fast = false ∧ trailingPads 0x5A3D673D#32 < 3 ∧
        ∃ i, i < 4 - trailingPads 0x5A3D673D#32 ∧ isValidSymbol (lane 0x5A3D673D#32 i) = false) ∧
      (isIllegalWord false 0x31#32 = false ∧ ((0x31#32).extractLsb' 0 4).toNat = 1 ∧
        (loaded 0 0#32).status.final = false) := by decide

theorem witness_IrqIsErrAndErrie :
    (∃ t, exec .clrerr (afterError 4 0#32) = .next t) ∧ (0xFFFFFFFB#32).getLsbD 2 = false :=
  ⟨⟨_, rfl⟩, by decide⟩

theorem witness_DecodeOfEncodeIsTheCommand :
    Instr.wellFormed false (.encq 3#2) = true ∧ Instr.wellFormed true (.decq 3#2) = true ∧
      Instr.wellFormed false (.illegal 0x12#32) = true := by decide

theorem witness_DecodeAgreesWithTheOpcodeTable :
    ∃ row, Instr.tableRow? (.decq 0#2) = some row ∧ decode false 0x02#32 = .decq 0#2 ∧ row.fits 0x02#32 = true ∧
      (0x02#32).extractLsb' 4 2 = 0#2 ∧ row.fits 0x32#32 = true := ⟨_, rfl, by decide⟩

theorem witness_StepRunsTheDecodedCommand :
    Ready (before (command (.encq 3)) State.reset) ∧ Instr.wellFormed false (.encq 3) = true ∧
      (before (command (.encq 3)) State.reset).pending = .access (.write 0x14 4 0x31#32) :: [] ∧
      encode (.encq 3) = 0x31#32 := by unfold Ready; decide

theorem witness_ReadReturnsTheRegister :
    Ready (before (rd .symcnt) (afterFinal 0 0#32)) ∧
      (before (rd .symcnt) (afterFinal 0 0#32)).pending = .access (.read 0x1C 4) :: [] ∧
      (before (rd .id) State.reset).pending = .access (.read 0x00 4) :: [] := by unfold Ready; decide

theorem witness_WriteFollowsTheRegisterMap :
    Ready (before (wr .symcnt 1#32) State.reset) ∧
      (before (wr .symcnt 1#32) State.reset).pending = .access (.write 0x1C 4 1#32) :: [] ∧
      (before (wr .ctrl 1#32) State.reset).pending = .access (.write 0x04 4 1#32) :: [] ∧
      (before (wr .din 1#32) State.reset).pending = .access (.write 0x0C 4 1#32) :: [] ∧
      (before (wr .cmd 1#32) State.reset).pending = .access (.write 0x14 4 1#32) :: [] := by unfold Ready; decide

theorem witness_CtrlKeepsThreeBits :
    Ready { State.reset with pending := [wr .ctrl 0xFFFFFFFF#32, rd .ctrl] } ∧
      [wr .ctrl 0xFFFFFFFF#32, rd .ctrl] = [.access (.write 0x04 4 0xFFFFFFFF#32), .access (.read 0x04 4)] ∧
      [wr .ctrl 2#32, wr .cmd 0x12#32] = [.access (.write 0x04 4 2#32), .access (.write 0x14 4 0x12#32)] := by
  unfold Ready; decide

theorem witness_UnadmittedAccessIsRefused :
    Ready (before (.access (.read 0x00 2)) State.reset) ∧ (2 ≠ 4) ∧ (0x02 : Int) % 4 ≠ 0 := by unfold Ready; decide

/-- A legal state, with an access to each side of the window's two ends. -/
theorem witness_LegalStepStopsOnlyOnUnadmittedAccess :
    Legal (before (.access (.read 0x1C 4)) State.reset) ∧ Legal (before (.access (.read 0x20 4)) State.reset) ∧
      Legal (before (.access (.read (-4) 4)) State.reset) ∧ (32 : Int) ≤ 0x20 ∧ (-4 : Int) < 0 := by
  unfold Legal StatusLegal NoStaleResult; decide

theorem witness_AccessBeforeResetIsRefused :
    ({ State.reset with resetSeen := false, pending := [rd .id] } : State).resetSeen = false ∧
      [rd .id] = [.access (.read 0x00 4)] := by decide

theorem witness_HardwareResetGivesTheResetState :
    (before (.rst none) { afterFinal 7 5#32 with resetSeen := false }).pending = .rst none :: [] := by decide

theorem witness_SrstEqualsHardwareReset : Ready (afterFinal 7 5#32) := by unfold Ready; decide

theorem witness_IdleStepChangesNothing : (afterFinal 7 5#32).pending = [] := by decide

theorem witness_EveryBusCycleIsPerformed :
    BusCycle.event? ⟨false, true, false, 7#3, 0#32⟩ = some (rd .symcnt) ∧
      Legal (before (rd .symcnt) (afterFinal 0 0#32)) ∧
      (before (rd .symcnt) (afterFinal 0 0#32)).pending = rd .symcnt :: [] := by
  unfold Legal StatusLegal NoStaleResult; decide

theorem witness_TextEncodesAsTheSource :
    (Ready (loaded 0 0#32) ∧ (loaded 0 0#32).status.final = false ∧ (loaded 0 0#32).nopad = false) ∧
      Ready (loaded 2 0#32) ∧ (loaded 2 0#32).status.final = false ∧ (loaded 2 0#32).nopad = true := by
  unfold Ready; decide

theorem witness_EncodedTextDecodesBack :
    (Ready (loaded 0 0#32) ∧ (loaded 0 0#32).status.final = false ∧ (loaded 0 0#32).status.err = false) ∧
      Ready (loaded 3 0#32) ∧ (loaded 3 0#32).status.final = false ∧ (loaded 3 0#32).status.err = false ∧
      (loaded 3 0#32).nopad = true := by unfold Ready; decide

/-- `exec i s = next t` holds of some `t` for every `i`; here one for each group of commands that the frame, the
counters, FINAL and the first code are stated of. -/
theorem witness_CommandsKeepWhatTheyDoNotName :
    (∃ t, exec .clrerr (afterError 0 0#32) = .next t) ∧ (∃ t, exec .symof (afterFinal 7 5#32) = .next t) ∧
      (∃ t, exec .srst (afterFinal 7 5#32) = .next t) ∧ ∃ t, exec (.encq 1) (loaded 0 5#32) = .next t :=
  ⟨⟨_, rfl⟩, ⟨_, rfl⟩, ⟨_, rfl⟩, ⟨_, rfl⟩⟩

theorem witness_BytecntCountsStreamBytes :
    (∃ t, exec (.encq 3) (loaded 0 5#32) = .next t ∧ t.bytecnt = 3#32) ∧
      (∃ t, exec (.decq 0) (loaded 0 0x5A673D3D#32) = .next t ∧ t.bytecnt = 1#32) ∧
      (∃ t, exec .endStream (afterFinal 0 5#32) = .next t ∧ t.bytecnt = 0#32) ∧
      ∃ t, exec .valid (afterFinal 0 5#32) = .next t ∧ t.bytecnt = 1#32 :=
  ⟨⟨_, rfl, by decide⟩, ⟨_, rfl, by decide⟩, ⟨_, rfl, by decide⟩, ⟨_, rfl, by decide⟩⟩

theorem witness_SymcntCountsStreamSymbols :
    (∃ t, exec (.encq 2) (loaded 2 5#32) = .next t ∧ t.symcnt = 3#32) ∧
      (∃ t, exec (.decq 2) (loaded 2 0x5A670000#32) = .next t ∧ t.symcnt = 2#32) ∧
      (∃ t, exec .endStream (afterFinal 0 5#32) = .next t ∧ t.symcnt = 0#32) ∧
      ∃ t, exec .valid (afterFinal 0 5#32) = .next t ∧ t.symcnt = 4#32 :=
  ⟨⟨_, rfl, by decide⟩, ⟨_, rfl, by decide⟩, ⟨_, rfl, by decide⟩, ⟨_, rfl, by decide⟩⟩

theorem witness_FinalMarksThePartialQuantum :
    (∃ t, exec (.encq 1) (loaded 0 5#32) = .next t ∧ t.status.final = true) ∧
      (∃ t, exec (.encq 3) (loaded 0 5#32) = .next t ∧ t.status.final = false) ∧
      ∃ t, exec .endStream (afterFinal 0 5#32) = .next t ∧ t.status.final = false :=
  ⟨⟨_, rfl, by decide⟩, ⟨_, rfl, by decide⟩, ⟨_, rfl, by decide⟩⟩

theorem witness_FirstErrorCodeIsKept :
    (∃ t, exec (.illegal 9#32) (afterError 0 0#32) = .next t ∧ t.status.eovf = true) ∧
      (afterError 0 0#32).status.err = true ∧
      ({ (afterError 0 0#32).status with eovf := true } : Status).eovf = true :=
  ⟨⟨_, rfl, by decide⟩, by decide, by decide⟩

theorem witness_OnlyACommandRecordsAnError :
    (∃ t, step (before (wr .cmd 9#32) (loaded 0 0#32)) = .next t ∧ t.status.err = true) ∧
      (before (wr .cmd 9#32) (loaded 0 0#32)).status.err = false :=
  ⟨⟨_, rfl, by decide⟩, by decide⟩

theorem witness_OnlyClrerrSrstOrResetClearsErr :
    (∃ t, step (before (command .clrerr) (afterError 0 0#32)) = .next t ∧ t.status.err = false) ∧
      (∃ t, step (before (.rst none) (afterError 0 0#32)) = .next t ∧ t.status.err = false) ∧
      (afterError 0 0#32).status.err = true :=
  ⟨⟨_, rfl, by decide⟩, ⟨_, rfl, by decide⟩, by decide⟩

/-- Other words in the lanes that ENCQ 1 and DECQ 2 do not read, and above the operands of SYMOF and VALID. -/
theorem witness_UnreadDinBitsDoNotMatter :
    (∀ j, j < 1 → lane 0x66FFFFFF#32 j = lane 0x66000000#32 j) ∧
      ((loaded 2 0x5A670000#32).nopad = true ∧
        ∀ j, j < 4 - (2#2).toNat → lane 0x5A673F3F#32 j = lane 0x5A670000#32 j) ∧
      (0xFFFFFFC0#32).extractLsb' 0 6 = (0x00000000#32).extractLsb' 0 6 ∧
      (0xFFFFFF41#32).extractLsb' 0 8 = (0x00000041#32).extractLsb' 0 8 := by decide

/-- FAST and ERRIE flipped for ENCQ, ERRIE alone for DECQ. -/
theorem witness_OptionBitsReachTheirCommandsOnly :
    (0b101#3).getLsbD 1 = (loaded 0 0#32).ctrl.getLsbD 1 ∧ (0b100#3).getLsbD 0 = (loaded 0 0#32).ctrl.getLsbD 0 ∧
      (0b100#3).getLsbD 1 = (loaded 0 0#32).ctrl.getLsbD 1 := by decide

theorem witness_StepKeepsTheStateLegal :
    Legal (before (command (.encq 3)) (loaded 0 0x666F6F00#32)) ∧
      ∃ t, step (before (command (.encq 3)) (loaded 0 0x666F6F00#32)) = .next t :=
  ⟨by unfold Legal StatusLegal NoStaleResult; decide, _, rfl⟩

/-- An open stream, and a closed one with each excess of the invariant's second clause. -/
theorem witness_StepKeepsTheCountersBalanced :
    CountersBalanced (before (command (.encq 1)) (loaded 0 0x66000000#32)) ∧
      (∃ t, step (before (command (.encq 1)) (loaded 0 0x66000000#32)) = .next t) ∧
      CountersBalanced (afterFinal 0 0#32) ∧
      CountersBalanced { afterFinal 0 0#32 with bytecnt := 2#32, symcnt := 3#32 } :=
  ⟨by unfold CountersBalanced; decide, ⟨_, rfl⟩, by unfold CountersBalanced; decide,
    by unfold CountersBalanced; decide⟩

end Sys2Proof.Tests
end

namespace Sys2Proof.Machine

/-! ## Settling the scope's obligations (spec/00_scope.md) -/

/-- The branch of `step` that performs no access (R6, R146). -/
theorem step_of_pending_nil {s : State} (hidle : s.pending = []) : step s = .next s := by
  simp only [step, hidle]

/-- Settles O44: only a pending host event makes the block act. -/
theorem idleStepChangesNothing : Obligations.IdleStepChangesNothing :=
  fun _ hidle => step_of_pending_nil hidle

end Sys2Proof.Machine

namespace Sys2Proof.Machine

open Sys2Proof

/-! ## Facts about the state's operations that the statements on the registers share (spec/10_state.md) -/

/-! Each field after a quantum that completed, ENCQ's (R112) and DECQ's (R114). -/

@[simp] theorem encodeQuantum_ctrl (n : Nat) (s : State) : (encodeQuantum n s).ctrl = s.ctrl := rfl
@[simp] theorem encodeQuantum_status (n : Nat) (s : State) : (encodeQuantum n s).status =
    (s.status.withResult (encodedSymbols s.nopad n) (encodePadCount n)).markFinal (decide (n = 1 ∨ n = 2)) := rfl
@[simp] theorem encodeQuantum_din (n : Nat) (s : State) : (encodeQuantum n s).din = s.din := rfl
@[simp] theorem encodeQuantum_dout (n : Nat) (s : State) :
    (encodeQuantum n s).dout = encodedWord s.nopad n s.din := rfl
@[simp] theorem encodeQuantum_bytecnt (n : Nat) (s : State) :
    (encodeQuantum n s).bytecnt = s.bytecnt + BitVec.ofNat 32 n := rfl
@[simp] theorem encodeQuantum_symcnt (n : Nat) (s : State) :
    (encodeQuantum n s).symcnt = s.symcnt + BitVec.ofNat 32 (encodedSymbols s.nopad n) := rfl
@[simp] theorem encodeQuantum_resetSeen (n : Nat) (s : State) : (encodeQuantum n s).resetSeen = s.resetSeen := rfl
@[simp] theorem encodeQuantum_pending (n : Nat) (s : State) : (encodeQuantum n s).pending = s.pending := rfl
@[simp] theorem encodeQuantum_reads (n : Nat) (s : State) : (encodeQuantum n s).reads = s.reads := rfl

@[simp] theorem decodeQuantum_ctrl (p : Nat) (s : State) : (decodeQuantum p s).ctrl = s.ctrl := rfl
@[simp] theorem decodeQuantum_status (p : Nat) (s : State) : (decodeQuantum p s).status =
    (s.status.withResult (decodedBytes p) p).markFinal (decide (0 < p)) := rfl
@[simp] theorem decodeQuantum_din (p : Nat) (s : State) : (decodeQuantum p s).din = s.din := rfl
@[simp] theorem decodeQuantum_dout (p : Nat) (s : State) : (decodeQuantum p s).dout = decodedWord p s.din := rfl
@[simp] theorem decodeQuantum_bytecnt (p : Nat) (s : State) :
    (decodeQuantum p s).bytecnt = s.bytecnt + BitVec.ofNat 32 (decodedBytes p) := rfl
@[simp] theorem decodeQuantum_symcnt (p : Nat) (s : State) :
    (decodeQuantum p s).symcnt = s.symcnt + BitVec.ofNat 32 (consumedSymbols s.nopad p) := rfl
@[simp] theorem decodeQuantum_resetSeen (p : Nat) (s : State) : (decodeQuantum p s).resetSeen = s.resetSeen := rfl
@[simp] theorem decodeQuantum_pending (p : Nat) (s : State) : (decodeQuantum p s).pending = s.pending := rfl
@[simp] theorem decodeQuantum_reads (p : Nat) (s : State) : (decodeQuantum p s).reads = s.reads := rfl

/-- `exec_cases` as an eliminator: a fact about a command that answers `t` is shown once for each thing a command can
do. -/
theorem exec_elim {s : State} {motive : ∀ (i : Instr) (t : State), exec i s = .next t → Prop}
    (nop : ∀ h, motive .nop s h)
    (encqLength : ∀ n, s.status.final = true → ∀ h, motive (.encq n) (raiseError .length s) h)
    (encq : ∀ n, s.status.final = false → ∀ h, motive (.encq n) (encodeQuantum n.toNat s) h)
    (decqError : ∀ pc code, decqError pc s = some code → ∀ h, motive (.decq pc) (raiseError code s) h)
    (decq : ∀ pc, decodePadCount s.nopad pc s.din ≤ 2 → s.status.final = false →
      ∀ h, motive (.decq pc) (decodeQuantum (decodePadCount s.nopad pc s.din) s) h)
    (lookup : ∀ i d, i = .symof ∨ i = .grpof ∨ i = .valid → ∀ h, motive i (writeResult d 1 0 s) h)
    (endStream : ∀ h, motive .endStream (closeStream s) h)
    (clrerr : ∀ h, motive .clrerr (clearErrorRecord s) h)
    (srst : ∀ h, motive .srst (resetRegisters s) h)
    (illegal : ∀ w h, motive (.illegal w) (raiseError .illegalCmd s) h)
    (i : Instr) (t : State) (h : exec i s = .next t) : motive i t h := by
  rcases exec_cases h with ⟨rfl, rfl⟩ | ⟨n, rfl, hf, rfl⟩ | ⟨n, rfl, hf, rfl⟩ | ⟨pc, code, rfl, he, rfl⟩ |
    ⟨pc, rfl, he, rfl⟩ | ⟨d, hi, rfl⟩ | ⟨rfl, rfl⟩ | ⟨rfl, rfl⟩ | ⟨rfl, rfl⟩ | ⟨w, rfl, rfl⟩
  · exact nop h
  · exact encqLength n hf h
  · exact encq n hf h
  · exact decqError pc code he h
  · obtain ⟨-, hopen, hp, -⟩ := decqError_eq_none.mp he
    exact decq pc hp hopen h
  · exact lookup i d hi h
  · exact endStream h
  · exact clrerr h
  · exact srst h
  · exact illegal w h

/-- A property of the registers that reset establishes and that every read, register write and command keeps is kept by
every step: the induction step of an invariant, said once. -/
theorem step_preserves {P : State → Prop}
    (hpending : ∀ s rest, P s → P { s with pending := rest })
    (hreset : ∀ s, P (hardReset s))
    (hread : ∀ v s, P s → P (returnToHost v s))
    (hwrite : ∀ r v s, P s → P (writeReg r v s))
    (hexec : ∀ i s t, P s → exec i s = .next t → P t)
    {s t : State} (hs : P s) (h : step s = .next t) : P t := by
  rcases step_cases h with ⟨-, rfl⟩ | ⟨e, rest, -, hstep⟩
  · exact hs
  · have hs' := hpending s rest hs
    rcases hstep with ⟨lost, -, rfl⟩ | ⟨-, -, ⟨r, -, rfl⟩ | ⟨r, v, -, -, rfl⟩ | ⟨w, -, hx⟩⟩
    · exact hreset _
    · exact hread _ _ hs'
    · exact hwrite _ _ _ hs'
    · exact hexec _ _ _ hs' hx

/-- An access in a ready state is performed by the step that takes it off the pending events (R57). -/
theorem step_of_access {s : State} {a : HostAccess} {rest : List HostEvent} (hs : Ready s)
    (hp : s.pending = .access a :: rest) : step s = performAccess a { s with pending := rest } := by
  simp only [step, hp]
  exact perform_access (s := { s with pending := rest }) hs a

/-! A command word is made again from what decoding reads of it. -/

/-- A word whose reserved bits are 0 is made of its two other fields (R63). -/
theorem commandWord_fields {w : Word} (hrsv : rsvField w = 0#26) : commandWord (fField w) (opField w) = w := by
  rw [commandWord, ← hrsv, rsvField, fField, opField,
    BitVec.extractLsb'_append_extractLsb'_eq_extractLsb' (by decide),
    BitVec.extractLsb'_append_extractLsb'_eq_extractLsb' (by decide)]
  exact BitVec.extractLsb'_eq_self

/-- A word that passes R71's checks: no reserved bit, one of the nine opcodes, and F = 0 but for ENCQ and DECQ. -/
theorem fields_of_illegalCause_eq_none {nopad : Bool} {w : Word} (h : illegalCause nopad w = none) :
    rsvField w = 0#26 ∧ (opField w).toNat < 9 ∧ (fField w = 0#2 ∨ opField w = 1#4 ∨ opField w = 2#4) := by
  unfold illegalCause at h
  split at h
  · cases h
  · split at h
    · cases h
    · split at h
      · cases h
      · rename_i hrsv hop hf
        exact ⟨not_not.mp hrsv, not_le.mp hop, by tauto⟩

/-- The word of a command that the case list of R71 gives. -/
theorem encode_decodeOp {w : Word} (hop : (opField w).toNat < 9)
    (hf : fField w = 0#2 ∨ opField w = 1#4 ∨ opField w = 2#4) :
    encode (decodeOp w) = commandWord (fField w) (opField w) := by
  have hval : opField w = BitVec.ofNat 4 (opField w).toNat := by simp
  unfold decodeOp
  generalize (opField w).toNat = k at hop hval ⊢
  interval_cases k <;> simp_all [encode]

/-- Decoding loses nothing of the word, in either mode (R71). -/
theorem encode_decode (nopad : Bool) (w : Word) : encode (decode nopad w) = w := by
  unfold decode
  split
  · rfl
  · rename_i hlegal
    obtain ⟨hrsv, hop, hf⟩ := fields_of_illegalCause_eq_none hlegal
    rw [encode_decodeOp hop hf, commandWord_fields hrsv]

/-! ## O59: the state stays legal -/

/-- A code that is raised is no reserved value of ECODE (R125). -/
theorem ErrCode.bits_le_four (code : ErrCode) : code.bits.toNat ≤ 4 := by
  cases code <;> decide

/-- NONE is no code that is raised (R125). -/
theorem ErrCode.bits_ne_zero (code : ErrCode) : code.bits ≠ 0#3 := by
  cases code <;> decide

theorem statusLegal_reset : StatusLegal Status.reset := by
  unfold StatusLegal
  decide

/-- NOUT up to 4 and PADCNT up to 2 are no reserved values (R29). -/
theorem statusLegal_withResult {st : Status} {n p : Nat} (h : StatusLegal st) (hn : n ≤ 4) (hp : p ≤ 2) :
    StatusLegal (st.withResult n p) := by
  obtain ⟨hecode, -, -, hnone, heovf⟩ := h
  refine ⟨hecode, ?_, ?_, hnone, heovf⟩
  · rw [Status.withResult_padcnt, BitVec.toNat_ofNat]
    omega
  · rw [Status.withResult_nout, BitVec.toNat_ofNat]
    omega

theorem statusLegal_recordError {st : Status} (code : ErrCode) (h : StatusLegal st) :
    StatusLegal (st.recordError code) := by
  obtain ⟨hecode, -, -, hnone, -⟩ := h
  refine ⟨?_, by simp, by simp, ?_, by simp⟩
  · rw [Status.recordError_ecode]
    split
    · exact hecode
    · exact code.bits_le_four
  · cases herr : st.err
    · simpa [herr] using code.bits_ne_zero
    · simpa [herr] using hnone

theorem statusLegal_clearError {st : Status} (h : StatusLegal st) : StatusLegal st.clearError := by
  obtain ⟨-, hpad, hnout, -, -⟩ := h
  exact ⟨by simp, hpad, hnout, by simp, by simp⟩

/-- A result within its ranges leaves a legal state, if NOUT = 0 comes with an empty DOUT and no pads. -/
theorem legal_writeResult {s : State} {d : Word} {n p : Nat} (h : Legal s) (hn : n ≤ 4) (hp : p ≤ 2)
    (hempty : n = 0 → d = 0#32 ∧ p = 0) : Legal (writeResult d n p s) := by
  obtain ⟨hseen, hst, -⟩ := h
  refine ⟨hseen, statusLegal_withResult hst hn hp, fun hnout => ?_⟩
  have hn0 : n = 0 := by
    have hval : n % 2 ^ 3 = 0 := by simpa using congrArg BitVec.toNat hnout
    omega
  obtain ⟨rfl, rfl⟩ := hempty hn0
  exact ⟨rfl, rfl⟩

theorem legal_raiseError {s : State} (code : ErrCode) (h : Legal s) : Legal (raiseError code s) := by
  obtain ⟨hseen, hst, -⟩ := h
  exact ⟨hseen, statusLegal_recordError code hst, fun _ => ⟨rfl, rfl⟩⟩

theorem legal_clearErrorRecord {s : State} (h : Legal s) : Legal (clearErrorRecord s) := by
  obtain ⟨hseen, hst, hstale⟩ := h
  exact ⟨hseen, statusLegal_clearError hst, hstale⟩

theorem legal_resetRegisters {s : State} (hseen : s.resetSeen = true) : Legal (resetRegisters s) :=
  ⟨hseen, statusLegal_reset, fun _ => ⟨rfl, rfl⟩⟩

/-- ENCQ fills four lanes at most. -/
theorem encodedSymbols_le_four : ∀ (nopad : Bool) (n : BitVec 2), encodedSymbols nopad n.toNat ≤ 4 := by decide

/-- ENCQ leaves no reserved value in PADCNT. -/
theorem encodePadCount_le_two (n : Nat) : encodePadCount n ≤ 2 := by
  unfold encodePadCount
  omega

/-- ENCQ fills no lane only when it is given no byte. -/
theorem encodedSymbols_eq_zero :
    ∀ (nopad : Bool) (n : BitVec 2), encodedSymbols nopad n.toNat = 0 → n = 0#2 := by decide

/-- ENCQ 0 writes no symbol and no pad (R112). -/
theorem encodedWord_zero (nopad : Bool) (din : Word) : encodedWord nopad 0 din = 0#32 := by
  simp [encodedWord, encodedLane, payloadGroups, encodePadCount, ofLanes]

theorem legal_markFinal {s : State} (b : Bool) (h : Legal s) : Legal (markFinal b s) := h

theorem legal_addCounts {s : State} (bytes symbols : Nat) (h : Legal s) : Legal (addCounts bytes symbols s) := h

theorem legal_encodeQuantum {s : State} (n : BitVec 2) (h : Legal s) : Legal (encodeQuantum n.toNat s) := by
  refine legal_addCounts _ _ (legal_markFinal _ ?_)
  refine legal_writeResult h (encodedSymbols_le_four _ n) (encodePadCount_le_two _) fun hzero => ?_
  obtain rfl := encodedSymbols_eq_zero _ n hzero
  exact ⟨encodedWord_zero _ _, rfl⟩

theorem legal_decodeQuantum {s : State} {p : Nat} (hp : p ≤ 2) (h : Legal s) : Legal (decodeQuantum p s) := by
  have hlanes : decodedBytes p ≤ 4 ∧ decodedBytes p ≠ 0 := by
    unfold decodedBytes
    omega
  exact legal_addCounts _ _ (legal_markFinal _
    (legal_writeResult h hlanes.1 hp fun hzero => absurd hzero hlanes.2))

theorem exec_keeps_legal (i : Instr) (s t : State) (hs : Legal s) (h : exec i s = .next t) : Legal t := by
  cases i, t, h using exec_elim with
  | nop => exact hs
  | encqLength => exact legal_raiseError _ hs
  | encq n => exact legal_encodeQuantum n hs
  | decqError => exact legal_raiseError _ hs
  | decq pc hp => exact legal_decodeQuantum hp hs
  | lookup => exact legal_writeResult hs (by decide) (by decide) (by simp)
  | endStream => exact hs
  | clrerr => exact legal_clearErrorRecord hs
  | srst => exact legal_resetRegisters hs.1
  | illegal => exact legal_raiseError _ hs

theorem legal_writeReg (r : Reg) (v : Word) (s : State) (h : Legal s) : Legal (writeReg r v s) := by
  cases r <;> exact h

theorem legal_hardReset (s : State) : Legal (hardReset s) := ⟨rfl, statusLegal_reset, fun _ => ⟨rfl, rfl⟩⟩

/-- Settles O59: every operation of the port and of the commands keeps the state legal. -/
theorem stepKeepsTheStateLegal : Obligations.StepKeepsTheStateLegal := fun _ _ hs h =>
  step_preserves (P := Legal) (fun _ _ hs => hs) legal_hardReset (fun _ _ hs => hs)
    legal_writeReg exec_keeps_legal hs h

/-! ## O49, O53: what a command leaves unchanged -/

/-- No command acts on the host's side of the port. -/
theorem exec_keeps_host_side {i : Instr} {s t : State} (h : exec i s = .next t) :
    t.resetSeen = s.resetSeen ∧ t.pending = s.pending ∧ t.reads = s.reads := by
  cases i, t, h using exec_elim <;> exact ⟨rfl, rfl, rfl⟩

/-- CTRL and DIN change by SRST only (R25, R37). -/
theorem exec_keeps_ctrl_din {i : Instr} {s t : State} (h : exec i s = .next t) (hsrst : i ≠ .srst) :
    t.ctrl = s.ctrl ∧ t.din = s.din := by
  cases i, t, h using exec_elim
  case srst => exact absurd rfl hsrst
  all_goals exact ⟨rfl, rfl⟩

/-- FINAL and the counters change by the stream's own commands and SRST only (R32, R40, R41). -/
theorem exec_keeps_stream {i : Instr} {s t : State} (h : exec i s = .next t) (hencq : ∀ n, i ≠ .encq n)
    (hdecq : ∀ pc, i ≠ .decq pc) (hend : i ≠ .endStream) (hsrst : i ≠ .srst) :
    t.status.final = s.status.final ∧ t.bytecnt = s.bytecnt ∧ t.symcnt = s.symcnt := by
  cases i, t, h using exec_elim
  case encqLength => exact absurd rfl (hencq _)
  case encq => exact absurd rfl (hencq _)
  case decqError => exact absurd rfl (hdecq _)
  case decq => exact absurd rfl (hdecq _)
  case endStream => exact absurd rfl hend
  case srst => exact absurd rfl hsrst
  all_goals simp

/-- The commands without a result keep the last one (R118 to R120). -/
theorem exec_keeps_result {i : Instr} {s t : State} (h : exec i s = .next t)
    (hi : i = .nop ∨ i = .endStream ∨ i = .clrerr) :
    t.dout = s.dout ∧ t.status.nout = s.status.nout ∧ t.status.padcnt = s.status.padcnt := by
  rcases hi with rfl | rfl | rfl <;> cases h <;> exact ⟨rfl, rfl, rfl⟩

/-- The commands without an error case keep the record (R83 to R85, R118, R119). -/
theorem exec_recordsNoError {i : Instr} {s t : State} (h : exec i s = .next t)
    (hi : i = .nop ∨ i = .endStream ∨ i = .symof ∨ i = .grpof ∨ i = .valid) : RecordsNoError s t := by
  rcases hi with rfl | rfl | rfl | rfl | rfl <;> cases h <;> exact ⟨rfl, rfl, rfl⟩

/-- Settles O49, one clause for each group of commands. -/
theorem commandsKeepWhatTheyDoNotName : Obligations.CommandsKeepWhatTheyDoNotName := fun _ _ _ h =>
  ⟨exec_keeps_host_side h, exec_keeps_ctrl_din h, exec_keeps_stream h, exec_keeps_result h, exec_recordsNoError h⟩

/-- Settles O53: an error adds at most EOVF to a record, and only CLRERR and SRST clear one. -/
theorem firstErrorCodeIsKept : Obligations.FirstErrorCodeIsKept := by
  intro i s t h herr hclr hsrst
  cases i, t, h using exec_elim
  case clrerr => exact absurd rfl hclr
  case srst => exact absurd rfl hsrst
  all_goals simp [herr]

/-! ## O60: the counters stay balanced -/

/-- The excess `3*SYMCNT - 4*BYTECNT` of the symbols counted over the bytes counted, modulo 2^32. -/
def streamExcess (bytes symbols : Word) : Word := 3#32 * symbols - 4#32 * bytes

/-- The excess that a stream may have: none while it is open, and 4p or p after a partial quantum with p pads. -/
def ExcessAllowed (final : Bool) (excess : Word) : Prop :=
  if final then excess ∈ [1#32, 2#32, 4#32, 8#32] else excess = 0#32

theorem countersBalanced_iff (s : State) :
    CountersBalanced s ↔ ExcessAllowed s.status.final (streamExcess s.bytecnt s.symcnt) := by
  cases hfinal : s.status.final
  · have hzero : 4#32 * s.bytecnt = 3#32 * s.symcnt ↔ 3#32 * s.symcnt - 4#32 * s.bytecnt = 0#32 :=
      eq_comm.trans sub_eq_zero.symm
    simpa [CountersBalanced, ExcessAllowed, streamExcess, hfinal] using hzero
  · simp [CountersBalanced, ExcessAllowed, streamExcess, hfinal]

theorem streamExcess_add (b k b' k' : Word) :
    streamExcess (b + b') (k + k') = streamExcess b k + streamExcess b' k' := by
  simp only [streamExcess, BitVec.mul_add]
  abel

/-- A stream may have the excess that its last quantum gives, when it was open before. -/
theorem countersBalanced_of_quantum {s t : State} {bytes symbols : Word} (hs : CountersBalanced s)
    (hopen : s.status.final = false) (hbytes : t.bytecnt = s.bytecnt + bytes)
    (hsymbols : t.symcnt = s.symcnt + symbols)
    (hquantum : ExcessAllowed t.status.final (streamExcess bytes symbols)) : CountersBalanced t := by
  have hnone : streamExcess s.bytecnt s.symcnt = 0#32 := by
    simpa [countersBalanced_iff, ExcessAllowed, hopen] using hs
  rwa [countersBalanced_iff, hbytes, hsymbols, streamExcess_add, hnone, BitVec.zero_add]

theorem countersBalanced_congr {s t : State} (hfinal : t.status.final = s.status.final)
    (hbytes : t.bytecnt = s.bytecnt) (hsymbols : t.symcnt = s.symcnt) (hs : CountersBalanced s) :
    CountersBalanced t := by
  rwa [countersBalanced_iff, hfinal, hbytes, hsymbols, ← countersBalanced_iff]

/-- What ENCQ adds to the counters is an excess that its FINAL allows, with pads counted or not (R112). -/
theorem excessAllowed_encode : ∀ (nopad : Bool) (n : BitVec 2),
    ExcessAllowed (decide (n.toNat = 1 ∨ n.toNat = 2))
      (streamExcess (BitVec.ofNat 32 n.toNat) (BitVec.ofNat 32 (encodedSymbols nopad n.toNat))) := by
  unfold ExcessAllowed
  decide

/-- What DECQ adds to the counters is an excess that its FINAL allows, with pads counted or not (R114). -/
theorem excessAllowed_decode (nopad : Bool) {p : Nat} (hp : p ≤ 2) : ExcessAllowed (decide (0 < p))
    (streamExcess (BitVec.ofNat 32 (decodedBytes p)) (BitVec.ofNat 32 (consumedSymbols nopad p))) := by
  unfold ExcessAllowed
  cases nopad <;> interval_cases p <;> decide

theorem countersBalanced_of_empty_stream {s : State} (hopen : s.status.final = false) (hbytes : s.bytecnt = 0#32)
    (hsymbols : s.symcnt = 0#32) : CountersBalanced s := by
  rw [countersBalanced_iff, hopen, hbytes, hsymbols]
  rfl

theorem exec_keeps_countersBalanced (i : Instr) (s t : State) (hs : CountersBalanced s) (h : exec i s = .next t) :
    CountersBalanced t := by
  cases i, t, h using exec_elim
  case encq n hopen _ =>
    exact countersBalanced_of_quantum hs hopen rfl rfl (by simpa [hopen] using excessAllowed_encode s.nopad n)
  case decq pc hp hopen _ =>
    exact countersBalanced_of_quantum hs hopen rfl rfl (by simpa [hopen] using excessAllowed_decode s.nopad hp)
  case endStream => exact countersBalanced_of_empty_stream rfl rfl rfl
  case srst => exact countersBalanced_of_empty_stream rfl rfl rfl
  all_goals exact countersBalanced_congr (s := s) (by simp) rfl rfl hs

theorem countersBalanced_writeReg (r : Reg) (v : Word) (s : State) (hs : CountersBalanced s) :
    CountersBalanced (writeReg r v s) :=
  countersBalanced_congr (by simp) (by simp) (by simp) hs

/-- Settles O60: only a quantum of an open stream adds to the counters, and its excess is an allowed one. -/
theorem stepKeepsTheCountersBalanced : Obligations.StepKeepsTheCountersBalanced := fun _ _ hs h =>
  step_preserves (P := CountersBalanced) (fun _ _ hs => hs) (fun _ => countersBalanced_of_empty_stream rfl rfl rfl)
    (fun _ _ hs => hs) countersBalanced_writeReg exec_keeps_countersBalanced hs h

/-! ## O58: the state after reset -/

/-- Settles O58: the base case of O59 and of O60. -/
theorem resetStateIsLegalAndBalanced : Obligations.ResetStateIsLegalAndBalanced :=
  ⟨legal_hardReset State.reset, countersBalanced_of_empty_stream rfl rfl rfl⟩

/-! ## O50 to O52: the counters and FINAL -/

/-- A number of lanes fits NOUT, so the counters add what NOUT shows (R34). -/
theorem setWidth_nout_eq {n : Nat} (hn : n ≤ 4) : (BitVec.ofNat 3 n).setWidth 32 = BitVec.ofNat 32 n :=
  BitVec.setWidth_ofNat_of_le_of_lt (by decide) (by omega)

theorem decodedBytes_le_four (p : Nat) : decodedBytes p ≤ 4 := by
  unfold decodedBytes
  omega

/-- The symbols of a decode quantum, from what STATUS shows after it (R41). -/
theorem consumedSymbols_eq_of_status (nopad : Bool) {p : Nat} (hp : p ≤ 2) :
    BitVec.ofNat 32 (consumedSymbols nopad p) =
      if BitVec.ofNat 3 (decodedBytes p) = 0#3 then 0#32
      else if nopad = true then 4#32 - (BitVec.ofNat 2 p).setWidth 32 else 4#32 := by
  cases nopad <;> interval_cases p <;> decide

/-- Settles O50: ENCQ and DECQ by what they can do, the other commands by what they keep. -/
theorem bytecntCountsStreamBytes : Obligations.BytecntCountsStreamBytes := by
  refine ⟨rfl, fun s => ⟨rfl, fun _ => rfl, fun _ => ⟨_, rfl, rfl⟩⟩, fun i s t h => ⟨?_, ?_, ?_, ?_⟩⟩
  · rintro n rfl
    rcases execEncq_cases h with ⟨hfinal, rfl⟩ | ⟨hopen, rfl⟩
    · simp [hfinal]
    · simp [hopen]
  · rintro pc rfl
    rcases execDecq_cases h with ⟨code, -, rfl⟩ | ⟨-, rfl⟩
    · simp
    · simp [setWidth_nout_eq (decodedBytes_le_four _)]
  · rintro (rfl | rfl) <;> cases h <;> rfl
  · intro hencq hdecq hend hsrst
    obtain ⟨-, hbytes, -⟩ := exec_keeps_stream h hencq hdecq hend hsrst
    exact hbytes

/-- Settles O51: as O50, the symbols of a quantum read off the STATUS that it leaves. -/
theorem symcntCountsStreamSymbols : Obligations.SymcntCountsStreamSymbols := by
  refine ⟨rfl, fun s => ⟨rfl, fun _ => rfl, fun _ => ⟨_, rfl, rfl⟩⟩, fun i s t h => ⟨?_, ?_, ?_, ?_⟩⟩
  · rintro n rfl
    rcases execEncq_cases h with ⟨-, rfl⟩ | ⟨-, rfl⟩
    · simp
    · simp [setWidth_nout_eq (encodedSymbols_le_four _ n)]
  · rintro pc rfl
    rcases execDecq_cases h with ⟨code, -, rfl⟩ | ⟨hok, rfl⟩
    · simp
    · obtain ⟨-, -, hp, -⟩ := decqError_eq_none.mp hok
      exact congrArg (s.symcnt + ·) (consumedSymbols_eq_of_status s.nopad hp)
  · rintro (rfl | rfl) <;> cases h <;> rfl
  · intro hencq hdecq hend hsrst
    obtain ⟨-, -, hsymbols⟩ := exec_keeps_stream h hencq hdecq hend hsrst
    exact hsymbols

/-- ENCQ ends its stream exactly when its pad count is not 0 (R108). -/
theorem encodePadCount_ne_zero_iff :
    ∀ n : BitVec 2, BitVec.ofNat 2 (encodePadCount n.toNat) ≠ 0#2 ↔ n.toNat = 1 ∨ n.toNat = 2 := by decide

/-- A pad count that DECQ accepts fits PADCNT (R33). -/
theorem padcnt_ne_zero_iff {p : Nat} (hp : p ≤ 2) : BitVec.ofNat 2 p ≠ 0#2 ↔ 0 < p := by
  interval_cases p <;> decide

/-- Settles O52: a quantum marks FINAL by its pad count, and an error leaves PADCNT = 0. -/
theorem finalMarksThePartialQuantum : Obligations.FinalMarksThePartialQuantum := by
  intro i s t h
  cases i, t, h using exec_elim
  case encq n hopen _ => simp [hopen, encodePadCount_ne_zero_iff]
  case decq pc hp hopen _ => simp [hopen, padcnt_ne_zero_iff hp]
  case lookup hi _ => rcases hi with rfl | rfl | rfl <;> simp
  all_goals simp [Status.reset]

/-! ## O55: what clears ERR -/

/-- Only CLRERR and SRST clear the error record (R30). -/
theorem eq_clrerr_or_srst_of_err_cleared {i : Instr} {s t : State} (h : exec i s = .next t)
    (herr : s.status.err = true) (hcleared : t.status.err = false) : i = .clrerr ∨ i = .srst := by
  by_contra hother
  obtain ⟨hclr, hsrst⟩ := not_or.mp hother
  obtain ⟨hkept, -⟩ := firstErrorCodeIsKept i s t h herr hclr hsrst
  exact absurd hkept (by simp [hcleared])

/-- Settles O55: the word that performed CLRERR or SRST is the only one that decodes to it. -/
theorem onlyClrerrSrstOrResetClearsErr : Obligations.OnlyClrerrSrstOrResetClearsErr := by
  intro s t h herr hcleared
  rcases step_cases h with ⟨-, rfl⟩ | ⟨e, rest, hp, hstep⟩
  · exact absurd herr (by simp [hcleared])
  · refine ⟨rest, ?_⟩
    rcases hstep with ⟨lost, rfl, -⟩ | ⟨-, -, ⟨r, -, rfl⟩ | ⟨r, v, -, -, rfl⟩ | ⟨w, rfl, hx⟩⟩
    · exact .inr (.inr ⟨lost, hp⟩)
    · exact absurd herr (by simpa using hcleared)
    · exact absurd herr (by simpa using hcleared)
    · have hw : encode (decode s.nopad w) = w := encode_decode _ _
      rcases eq_clrerr_or_srst_of_err_cleared hx herr hcleared with hi | hi <;> rw [hi] at hw <;> subst hw
      · exact .inl hp
      · exact .inr (.inl hp)

/-! ## O57: what the option bits reach -/

theorem decqError_setCtrl {s : State} {c : BitVec 3} (pc : BitVec 2)
    (hfast : State.fast { s with ctrl := c } = s.fast) (hnopad : State.nopad { s with ctrl := c } = s.nopad) :
    decqError pc { s with ctrl := c } = decqError pc s := by
  simp only [decqError, hfast, hnopad]

theorem encodeQuantum_setCtrl {s : State} {c : BitVec 3} (n : Nat)
    (hnopad : State.nopad { s with ctrl := c } = s.nopad) :
    encodeQuantum n { s with ctrl := c } = { encodeQuantum n s with ctrl := c } := by
  simp only [encodeQuantum, hnopad]
  rfl

theorem decodeQuantum_setCtrl {s : State} {c : BitVec 3} (p : Nat)
    (hnopad : State.nopad { s with ctrl := c } = s.nopad) :
    decodeQuantum p { s with ctrl := c } = { decodeQuantum p s with ctrl := c } := by
  simp only [decodeQuantum, hnopad]
  rfl

/-- Settles O57: of the commands only ENCQ and DECQ read CTRL, each its own bits. -/
theorem optionBitsReachTheirCommandsOnly : Obligations.OptionBitsReachTheirCommandsOnly := by
  intro i s c hsrst hfast hnopad
  cases i with
  | encq n =>
    have hn : State.nopad { s with ctrl := c } = s.nopad := hnopad (.inl ⟨n, rfl⟩)
    cases hfinal : s.status.final with
    | true => exact ⟨raiseError .length s, if_pos hfinal, if_pos hfinal⟩
    | false =>
      have hopen : ¬ s.status.final = true := by simp [hfinal]
      exact ⟨encodeQuantum n.toNat s, if_neg hopen,
        (if_neg hopen).trans (congrArg Host.Outcome.next (encodeQuantum_setCtrl _ hn))⟩
  | decq pc =>
    have hf : State.fast { s with ctrl := c } = s.fast := hfast ⟨pc, rfl⟩
    have hn : State.nopad { s with ctrl := c } = s.nopad := hnopad (.inr ⟨pc, rfl⟩)
    simp only [exec, execDecq, decqError_setCtrl pc hf hn]
    cases decqError pc s with
    | some code => exact ⟨_, rfl, rfl⟩
    | none => exact ⟨_, rfl, by simp only [decodeQuantum_setCtrl _ hn, hn]⟩
  | srst => exact absurd rfl hsrst
  | nop => exact ⟨_, rfl, rfl⟩
  | symof => exact ⟨_, rfl, rfl⟩
  | grpof => exact ⟨_, rfl, rfl⟩
  | valid => exact ⟨_, rfl, rfl⟩
  | endStream => exact ⟨_, rfl, rfl⟩
  | clrerr => exact ⟨_, rfl, rfl⟩
  | illegal w => exact ⟨_, rfl, rfl⟩

/-! ## O37: CTRL -/

/-- The kept bits of a CTRL write, as a read returns them (R25). -/
theorem setWidth_ctrlBits (v : Word) : (v.extractLsb' 0 3).setWidth 32 = v &&& 0x00000007#32 := by
  rw [← BitVec.setWidth_eq_extractLsb' (by decide)]
  apply BitVec.eq_of_toNat_eq
  rw [BitVec.toNat_setWidth, BitVec.toNat_setWidth, BitVec.toNat_and]
  rw [show (0x7#32).toNat = 2 ^ 3 - 1 from rfl, Nat.and_two_pow_sub_one_eq_mod]
  omega

/-- Settles O37: the step of each access in turn, the write leaving the state ready. -/
theorem ctrlKeepsThreeBits : Obligations.CtrlKeepsThreeBits := by
  intro s v rest hs hp
  have hbits : v.setWidth 3 = v.extractLsb' 0 3 := BitVec.setWidth_eq_extractLsb' (by decide)
  have hready : Ready { s with ctrl := v.extractLsb' 0 3, pending := rest } := hs
  refine ⟨{ s with ctrl := v.extractLsb' 0 3, pending := rest }, ?_, rfl, ?_, ?_⟩
  · rw [step_of_access hs hp, ← hbits]
    rfl
  · rintro later rfl
    rw [step_of_access hready rfl, ← setWidth_ctrlBits]
    rfl
  · rintro w later rfl
    rw [step_of_access hready rfl]
    have hnopad : v.getLsbD 1 = (v.extractLsb' 0 3).getLsbD 1 := by simp
    rw [hnopad]
    rfl

/-! ## O28: the interrupt output -/

/-- Settles O28: irq is read off ERR and CTRL bit 2, so each clause is what an operation leaves in them. -/
theorem irqIsErrAndErrie : Obligations.IrqIsErrAndErrie := by
  intro s
  refine ⟨rfl, fun code => ?_, fun t h => ?_, fun v hv => ⟨?_, writeReg_status _ _ _⟩⟩
  · simp [State.irq, State.errie]
  · cases h
    rfl
  · have herrie : (writeReg .ctrl v s).errie = false := by simpa [State.errie] using hv
    rw [State.irq, herrie, Bool.and_false]

/-! ## O38: the read value of STATUS -/

/-- Each bit of the read value of STATUS, field by field; past bit 10 there is none (R29). -/
theorem Status.getLsbD_word (st : Status) (i : Nat) : st.word.getLsbD i =
    if i < 1 then (BitVec.ofBool st.err).getLsbD i
    else if i < 4 then st.ecode.getLsbD (i - 1)
    else if i < 5 then (BitVec.ofBool st.final).getLsbD (i - 4)
    else if i < 7 then st.padcnt.getLsbD (i - 5)
    else if i < 10 then st.nout.getLsbD (i - 7)
    else (BitVec.ofBool st.eovf).getLsbD (i - 10) := by
  change BitVec.getLsbD (w := 21 + 1 + 3 + 2 + 1 + 3 + 1) (_ ++ _ ++ _ ++ _ ++ _ ++ _ ++ _) i = _
  simp only [BitVec.getLsbD_append]
  grind

/-- A field of a word, from its bits. -/
theorem extractLsb'_eq_of_getLsbD {n len start : Nat} {x : BitVec n} {y : BitVec len}
    (hbits : ∀ i < len, x.getLsbD (start + i) = y.getLsbD i) : x.extractLsb' start len = y := by
  apply BitVec.eq_of_getLsbD_eq
  intro i hi
  rw [BitVec.getLsbD_extractLsb', hbits i hi]
  simp [hi]

/-- Settles O38, each field bit by bit from `Status.getLsbD_word`. -/
theorem statusFieldsStandAtTheirBits : Obligations.StatusFieldsStandAtTheirBits := by
  intro st
  refine ⟨?_, extractLsb'_eq_of_getLsbD fun i hi => ?_, ?_, extractLsb'_eq_of_getLsbD fun i hi => ?_,
    extractLsb'_eq_of_getLsbD fun i hi => ?_, ?_, extractLsb'_eq_of_getLsbD fun i hi => ?_⟩ <;>
    rw [Status.getLsbD_word]
  · simp
  · grind
  · simp
  · grind
  · grind
  · simp
  · grind

end Sys2Proof.Machine

namespace Sys2Proof.Machine

open Sys2Proof

/-! ## The register port (spec/20_memory.md): what each host event does -/

/-- STATUS as the spec says it always is holds no value that is never produced (R29, I12). -/
theorem ready_of_legal {s : State} (hs : Legal s) : Ready s := by
  obtain ⟨hseen, ⟨hecode, hpadcnt, hnout, -, -⟩, -⟩ := hs
  refine ⟨hseen, ?_⟩
  simp only [Status.reservedValue, Bool.or_eq_false_iff, decide_eq_false_iff_not]
  omega

/-- Every command of every state completes (R137). -/
theorem exec_completes (i : Instr) (s : State) : ∃ t, exec i s = .next t := by
  cases i with
  | encq n =>
    simp only [exec, execEncq]
    split <;> exact ⟨_, rfl⟩
  | decq pc =>
    simp only [exec, execDecq]
    split <;> exact ⟨_, rfl⟩
  | nop => exact ⟨_, rfl⟩
  | symof => exact ⟨_, rfl⟩
  | grpof => exact ⟨_, rfl⟩
  | valid => exact ⟨_, rfl⟩
  | endStream => exact ⟨_, rfl⟩
  | clrerr => exact ⟨_, rfl⟩
  | srst => exact ⟨_, rfl⟩
  | illegal w => exact ⟨_, rfl⟩

/-- A word read at a register's offset returns the register (R50). -/
theorem performAccess_read_offset (r : Reg) (s : State) :
    performAccess (.read r.offset 4) s = .next (returnToHost (readReg r s) s) := by
  simp only [performAccess, admission_offset]

/-- A word write at the offset of CMD executes the word (R39). -/
theorem performAccess_write_cmd (v : Word) (s : State) :
    performAccess (.write Reg.cmd.offset 4 v) s = executeWord v s := by
  simp only [performAccess, admission_offset]

/-- A word write at the offset of another register writes that register (R52). -/
theorem performAccess_write_offset {r : Reg} (hr : r ≠ .cmd) (v : Word) (s : State) :
    performAccess (.write r.offset 4 v) s = .next (writeReg r v s) := by
  cases r with
  | cmd => exact absurd rfl hr
  | _ => rfl

/-- The step of a clock edge with `rst` = 1, in any state (R147). -/
theorem step_of_rst {s : State} {lost : Option HostAccess} {rest : List HostEvent} (hp : s.pending = .rst lost :: rest) :
    step s = .next (hardReset { s with pending := rest }) := by
  simp only [step, hp, perform]

/-- The step of a register read. -/
theorem step_of_rd {s : State} {r : Reg} {rest : List HostEvent} (hs : Ready s) (hp : s.pending = rd r :: rest) :
    step s = .next (returnToHost (readReg r s) { s with pending := rest }) := by
  rw [step_of_access hs hp, performAccess_read_offset]
  cases r <;> rfl

/-- The step of a write to a register other than CMD. -/
theorem step_of_wr {s : State} {r : Reg} {v : Word} {rest : List HostEvent} (hr : r ≠ .cmd) (hs : Ready s)
    (hp : s.pending = wr r v :: rest) : step s = .next (writeReg r v { s with pending := rest }) := by
  rw [step_of_access hs hp, performAccess_write_offset hr]

/-- The step of a write to CMD. -/
theorem step_of_wr_cmd {s : State} {v : Word} {rest : List HostEvent} (hs : Ready s)
    (hp : s.pending = wr .cmd v :: rest) : step s = executeWord v { s with pending := rest } := by
  rw [step_of_access hs hp, performAccess_write_cmd]

/-! ## O35 and O36: the register map -/

/-- Settles O35: each row of the list is a register's offset with the register's read value. -/
theorem readReturnsTheRegister : Obligations.ReadReturnsTheRegister := by
  intro s off v rest hs hp hrow
  have hreg : ∃ r : Reg, off = r.offset ∧ v = readReg r s := by
    simp only [List.mem_cons, List.not_mem_nil, or_false, Prod.mk.injEq] at hrow
    rcases hrow with h | h | h | h | h | h | h | h
    exacts [⟨.id, h⟩, ⟨.ctrl, h⟩, ⟨.status, h⟩, ⟨.din, h⟩, ⟨.dout, h⟩, ⟨.cmd, h⟩, ⟨.bytecnt, h⟩, ⟨.symcnt, h⟩]
  obtain ⟨r, rfl, rfl⟩ := hreg
  exact step_of_rd hs hp

/-- Settles O36: the step of the write to each register. -/
theorem writeFollowsTheRegisterMap : Obligations.WriteFollowsTheRegisterMap := by
  intro s off v rest hs hp
  refine ⟨fun hoff => ?readOnly, ?ctrl, ?din, ?cmd⟩
  case readOnly =>
    simp only [List.mem_cons, List.not_mem_nil, or_false] at hoff
    rcases hoff with rfl | rfl | rfl | rfl | rfl
    exacts [step_of_wr (r := .id) nofun hs hp, step_of_wr (r := .status) nofun hs hp,
      step_of_wr (r := .dout) nofun hs hp, step_of_wr (r := .bytecnt) nofun hs hp,
      step_of_wr (r := .symcnt) nofun hs hp]
  case ctrl =>
    rintro rfl
    rw [← BitVec.setWidth_eq_extractLsb' (by decide)]
    exact step_of_wr (r := .ctrl) nofun hs hp
  case din =>
    rintro rfl
    exact step_of_wr (r := .din) nofun hs hp
  case cmd =>
    rintro rfl
    exact step_of_wr_cmd hs hp

/-! ## O39 and O40: which accesses are refused -/

/-- The registers stand at the multiples of 4 in the window (R21). -/
theorem exists_eq_offset_iff {off : Int} : (∃ r : Reg, off = r.offset) ↔ off % 4 = 0 ∧ 0 ≤ off ∧ off < 32 := by
  constructor
  · rintro ⟨r, rfl⟩
    cases r <;> decide
  · rintro ⟨halign, hlow, hhigh⟩
    obtain ⟨k, rfl⟩ := Int.dvd_of_emod_eq_zero halign
    obtain ⟨hk0, hk8⟩ : 0 ≤ k ∧ k < 8 := by omega
    interval_cases k
    exacts [⟨.id, rfl⟩, ⟨.ctrl, rfl⟩, ⟨.status, rfl⟩, ⟨.din, rfl⟩, ⟨.dout, rfl⟩, ⟨.cmd, rfl⟩, ⟨.bytecnt, rfl⟩,
      ⟨.symcnt, rfl⟩]

/-- Only the word accesses at a multiple of 4 in the window are admitted (R51, R55). -/
theorem admission_eq_error_iff {off : Int} {size : Nat} :
    (∃ why, admission off size = .error why) ↔ size ≠ 4 ∨ off % 4 ≠ 0 ∨ off < 0 ∨ 32 ≤ off := by
  cases h : admission off size with
  | ok r =>
    obtain ⟨rfl, hoff⟩ := admission_eq_ok h
    have hwindow := exists_eq_offset_iff.mp ⟨r, hoff⟩
    exact iff_of_false nofun (by omega)
  | error why =>
    refine iff_of_true ⟨why, rfl⟩ ?_
    by_contra hin
    obtain rfl : size = 4 := by omega
    obtain ⟨r, rfl⟩ := exists_eq_offset_iff.mpr (show off % 4 = 0 ∧ 0 ≤ off ∧ off < 32 by omega)
    rw [admission_offset] at h
    cases h

/-- The offset that an access names. -/
def HostAccess.offset : HostAccess → Int
  | .read off _ => off
  | .write off _ _ => off

/-- The size that an access names. -/
def HostAccess.size : HostAccess → Nat
  | .read _ size => size
  | .write _ size _ => size

/-- An access that is not admitted is refused. -/
theorem performAccess_of_admission_error {a : HostAccess} {why : Refusal} (s : State)
    (h : admission a.offset a.size = .error why) : performAccess a s = .refused why := by
  cases a with
  | read off size =>
    simp only [performAccess, show admission off size = .error why from h]
  | write off size v =>
    simp only [performAccess, show admission off size = .error why from h]

/-- An access that is admitted completes. -/
theorem performAccess_of_admission_ok {a : HostAccess} {r : Reg} (s : State)
    (h : admission a.offset a.size = .ok r) : ∃ t, performAccess a s = .next t := by
  cases a with
  | read off size =>
    obtain ⟨rfl, rfl⟩ : size = 4 ∧ off = r.offset := admission_eq_ok h
    exact ⟨_, performAccess_read_offset r s⟩
  | write off size v =>
    obtain ⟨rfl, rfl⟩ : size = 4 ∧ off = r.offset := admission_eq_ok h
    by_cases hr : r = .cmd
    · rw [hr, performAccess_write_cmd]
      exact exec_completes _ s
    · exact ⟨_, performAccess_write_offset hr v s⟩

/-- An access, once performed, never faults (R56). -/
theorem performAccess_ne_fault (a : HostAccess) (s : State) (why : Fault) : performAccess a s ≠ .fault why := by
  cases h : admission a.offset a.size with
  | error refusal => simp [performAccess_of_admission_error s h]
  | ok r =>
    obtain ⟨t, ht⟩ := performAccess_of_admission_ok s h
    simp [ht]

/-- The accesses that are refused are those that are not word accesses at a multiple of 4 in the window (R51, R55). -/
theorem performAccess_refused_iff (a : HostAccess) (s : State) : (∃ why, performAccess a s = .refused why) ↔
    a.size ≠ 4 ∨ a.offset % 4 ≠ 0 ∨ a.offset < 0 ∨ 32 ≤ a.offset := by
  rw [← admission_eq_error_iff]
  cases h : admission a.offset a.size with
  | error why => exact iff_of_true ⟨why, performAccess_of_admission_error s h⟩ ⟨why, rfl⟩
  | ok r =>
    obtain ⟨t, ht⟩ := performAccess_of_admission_ok s h
    exact iff_of_false (by simp [ht]) nofun

/-- An access is a read or a write that names its offset and its size. -/
theorem HostAccess.eq_read_or_write_iff {a : HostAccess} {off : Int} {size : Nat} :
    (a = .read off size ∨ ∃ v, a = .write off size v) ↔ a.offset = off ∧ a.size = size := by
  cases a <;> simp [HostAccess.offset, HostAccess.size]

/-- Settles O39: a ready state performs the access, and `performAccess` refuses it. -/
theorem unadmittedAccessIsRefused : Obligations.UnadmittedAccessIsRefused := by
  intro s a off size rest hs hp ha hbad
  obtain ⟨rfl, rfl⟩ := HostAccess.eq_read_or_write_iff.mp ha
  rw [step_of_access hs hp, performAccess_refused_iff]
  exact hbad.imp_right .inl

/-- Settles O40, by what is pending: nothing, a reset, or an access, which `performAccess` decides. -/
theorem legalStepStopsOnlyOnUnadmittedAccess : Obligations.LegalStepStopsOnlyOnUnadmittedAccess := by
  intro s hs
  match hp : s.pending with
  | [] => simp [step_of_pending_nil hp]
  | .rst lost :: rest => simp [step_of_rst hp]
  | .access a :: rest =>
    simp only [step_of_access (ready_of_legal hs) hp, performAccess_refused_iff, List.cons.injEq,
      HostEvent.access.injEq]
    refine ⟨performAccess_ne_fault a _, fun hbad => ⟨a.offset, a.size, rest, ?_, hbad⟩, ?_⟩
    · simpa using HostAccess.eq_read_or_write_iff.mpr ⟨rfl, rfl⟩
    · rintro ⟨off, size, rest', ha, hbad⟩
      have ha' : a = .read off size ∨ ∃ v, a = .write off size v := ha.imp And.left fun ⟨v, h, _⟩ => ⟨v, h⟩
      obtain ⟨rfl, rfl⟩ := HostAccess.eq_read_or_write_iff.mp ha'
      exact hbad

end Sys2Proof.Machine

namespace Sys2Proof.Machine

open Sys2Proof

/-! ## Decoding and encoding (spec/30_encoding.md sections 1 to 5) -/

/-! R67's condition on the fields and R71's chain of checks are one test. -/

/-- R67, clause by clause, in the fields that decoding reads. -/
theorem isIllegalWord_iff {nopad : Bool} {w : Word} : isIllegalWord nopad w = true ↔
    9 ≤ (opField w).toNat ∨ rsvField w ≠ 0#26 ∨
      (fField w ≠ 0#2 ∧ (opField w).toNat ≠ 1 ∧ (opField w).toNat ≠ 2) ∨
      ((opField w).toNat = 2 ∧ fField w ≠ 0#2 ∧ nopad = false) := by
  have hrsv : rsvField w ≠ 0#26 ↔ (rsvField w).toNat ≠ 0 := not_congr BitVec.toNat_inj.symm
  have hf : fField w ≠ 0#2 ↔ (fField w).toNat ≠ 0 := not_congr BitVec.toNat_inj.symm
  rw [hrsv, hf]
  simp [isIllegalWord, opField, fField, rsvField, or_assoc, and_assoc]

/-- The chain of checks of R71 finds a defect exactly when R67 names one. -/
theorem illegalCause_eq_none_iff {nopad : Bool} {w : Word} :
    illegalCause nopad w = none ↔ isIllegalWord nopad w = false := by
  have hop (k : BitVec 4) : opField w = k ↔ (opField w).toNat = k.toNat := BitVec.toNat_inj.symm
  rw [← Bool.not_eq_true, isIllegalWord_iff]
  simp only [illegalCause, hop]
  repeat' split
  all_goals simp_all

/-- Decoding as one test and the case list of R71. -/
theorem decode_eq_ite (nopad : Bool) (w : Word) :
    decode nopad w = if isIllegalWord nopad w = true then .illegal w else decodeOp w := by
  cases hw : isIllegalWord nopad w with
  | false => simp [decode, illegalCause_eq_none_iff.mpr hw]
  | true =>
    obtain ⟨cause, hcause⟩ : ∃ cause, illegalCause nopad w = some cause :=
      Option.ne_none_iff_exists'.mp fun hnone => by simp [illegalCause_eq_none_iff.mp hnone] at hw
    simp [decode, hcause]

/-- A word with a defect decodes to the illegal command that carries it. -/
theorem decode_of_isIllegalWord {nopad : Bool} {w : Word} (hw : isIllegalWord nopad w = true) :
    decode nopad w = .illegal w := by
  rw [decode_eq_ite, if_pos hw]

/-! The fields of a word made from its fields (R63). -/

@[simp] theorem opField_commandWord (f : BitVec 2) (op : BitVec 4) : opField (commandWord f op) = op :=
  BitVec.extractLsb'_append_eq_right

@[simp] theorem fField_commandWord (f : BitVec 2) (op : BitVec 4) : fField (commandWord f op) = f := by
  revert f op
  decide

@[simp] theorem rsvField_commandWord (f : BitVec 2) (op : BitVec 4) : rsvField (commandWord f op) = 0#26 := by
  revert f op
  decide

/-! ## O30, O31: decoding and encoding are inverse -/

/-- Settles O30. The word of `illegal` is an illegal one; the word of any other command passes the checks and its
fields give the command back. -/
theorem decodeOfEncodeIsTheCommand : Obligations.DecodeOfEncodeIsTheCommand := by
  intro nopad i hi
  cases i with
  | illegal w => exact decode_of_isIllegalWord hi
  | decq pc =>
    have hpad : nopad = true ∨ pc = 0#2 := by simpa [Instr.wellFormed] using hi
    simpa [encode, decode_eq_ite, isIllegalWord_iff, decodeOp] using hpad.resolve_right
  | _ => simp [encode, decode_eq_ite, isIllegalWord_iff, decodeOp]

/-- The case list of R71 gives a command its word means when the word has no defect. -/
theorem wellFormed_decodeOp {nopad : Bool} {w : Word} (hw : isIllegalWord nopad w = false) :
    (decodeOp w).wellFormed nopad = true := by
  rw [← Bool.not_eq_true, isIllegalWord_iff] at hw
  simp only [not_or] at hw
  obtain ⟨hop, -, -, hpad⟩ := hw
  unfold decodeOp
  have hlt : (opField w).toNat < 9 := not_le.mp hop
  generalize (opField w).toNat = op at hlt hpad ⊢
  -- DECQ alone has a condition of its own: F = 0 unless NOPAD = 1.
  interval_cases op
  any_goals rfl
  cases nopad with
  | false => simpa [Instr.wellFormed] using hpad
  | true => rfl

theorem wellFormed_decode (nopad : Bool) (w : Word) : (decode nopad w).wellFormed nopad = true := by
  rw [decode_eq_ite]
  split
  next hw => exact hw
  next hw => exact wellFormed_decodeOp (by simpa using hw)

/-- Settles O31. -/
theorem encodeOfDecodeIsTheWord : Obligations.EncodeOfDecodeIsTheWord := fun nopad w =>
  ⟨encode_decode nopad w, wellFormed_decode nopad w⟩

/-- In each mode the words and the well-formed commands correspond one to one (R71). -/
theorem decode_eq_iff {nopad : Bool} {w : Word} {i : Instr} :
    decode nopad w = i ↔ i.wellFormed nopad = true ∧ encode i = w := by
  constructor
  · rintro rfl
    exact ⟨wellFormed_decode nopad w, encode_decode nopad w⟩
  · rintro ⟨hi, rfl⟩
    exact decodeOfEncodeIsTheCommand nopad i hi

/-! ## O32, O33: the legal words and the rows of the opcode table -/

/-- The commands of a mode other than `illegal`, in the order of R68's list of their words. -/
def legalCommands (nopad : Bool) : List Instr :=
  [.nop, .encq 0, .encq 1, .encq 2, .encq 3, .decq 0, .symof, .grpof, .valid, .endStream, .clrerr, .srst] ++
    if nopad then [.decq 1, .decq 2, .decq 3] else []

theorem mem_legalCommands_iff {nopad : Bool} {i : Instr} :
    i ∈ legalCommands nopad ↔ i.wellFormed nopad = true ∧ ∀ w, i ≠ .illegal w := by
  cases i with
  | illegal w => cases nopad <;> simp [legalCommands]
  | encq n =>
    have hmem : .encq n ∈ legalCommands nopad := by revert nopad n; decide
    simp [hmem, Instr.wellFormed]
  | decq pc =>
    have hmem : .decq pc ∈ legalCommands nopad ↔ Instr.wellFormed nopad (.decq pc) = true := by
      revert nopad pc; decide
    simp [hmem]
  | _ => simp [legalCommands, Instr.wellFormed]

/-- The legal words of a mode are the words of its commands. -/
theorem decode_ne_illegal_iff {nopad : Bool} {w : Word} :
    decode nopad w ≠ .illegal w ↔ w ∈ (legalCommands nopad).map encode := by
  simp only [List.mem_map, mem_legalCommands_iff]
  constructor
  · intro hw
    refine ⟨decode nopad w, ⟨wellFormed_decode nopad w, fun v hv => hw ?_⟩, encode_decode nopad w⟩
    have hvw : v = w := (decode_eq_iff.mp hv).2
    rwa [hvw] at hv
  · rintro ⟨i, ⟨hi, hne⟩, rfl⟩
    rw [decodeOfEncodeIsTheCommand nopad i hi]
    exact hne _

/-- Settles O32: R68's lists are the words of the legal commands. -/
theorem legalWordsAreTwelveAndFifteen : Obligations.LegalWordsAreTwelveAndFifteen :=
  ⟨fun _ => decode_ne_illegal_iff, fun _ => decode_ne_illegal_iff⟩

/-- Every command's word fits the row of the opcode table that the command names. -/
theorem fits_encode {i : Instr} {row : OpcodeRow} (hrow : i.tableRow? = some row) : row.fits (encode i) = true := by
  have hfits : Laws.EncodeFitsRow.Statement i := by
    cases i with
    | nop => exact Laws.EncodeFitsRow.nop
    | encq n => exact Laws.EncodeFitsRow.encq n
    | decq pc => exact Laws.EncodeFitsRow.decq pc
    | symof => exact Laws.EncodeFitsRow.symof
    | grpof => exact Laws.EncodeFitsRow.grpof
    | valid => exact Laws.EncodeFitsRow.valid
    | endStream => exact Laws.EncodeFitsRow.endStream
    | clrerr => exact Laws.EncodeFitsRow.clrerr
    | srst => exact Laws.EncodeFitsRow.srst
    | illegal w => exact Laws.EncodeFitsRow.illegal w
  simpa only [Laws.EncodeFitsRow.Statement, hrow] using hfits

/-- A word that fits a row whose mask is all ones is the row's pattern. -/
theorem eq_of_fits_ones {w v : Word} (hfits : OpcodeRow.fits ⟨0xFFFFFFFF#32, v⟩ w = true) : w = v := by
  have hmask : w &&& BitVec.allOnes 32 = v := of_decide_eq_true hfits
  rwa [BitVec.and_allOnes] at hmask

/-- A word that fits a row whose mask leaves out the field F is the row's opcode with that field filled in. -/
theorem eq_commandWord_of_fits {w : Word} {op : BitVec 4}
    (hfits : OpcodeRow.fits ⟨0xFFFFFFCF#32, commandWord 0 op⟩ w = true) : w = commandWord (fField w) op := by
  have hmask : w &&& 0xFFFFFFCF#32 = commandWord 0 op := of_decide_eq_true hfits
  have hrsv : rsvField w = 0#26 := by
    calc rsvField w = rsvField w &&& BitVec.allOnes 26 := BitVec.and_allOnes.symm
      _ = rsvField (w &&& 0xFFFFFFCF#32) := (BitVec.extractLsb'_and (y := 0xFFFFFFCF#32)).symm
      _ = 0#26 := by rw [hmask, rsvField_commandWord]
  have hop : opField w = op := by
    calc opField w = opField w &&& BitVec.allOnes 4 := BitVec.and_allOnes.symm
      _ = opField (w &&& 0xFFFFFFCF#32) := (BitVec.extractLsb'_and (y := 0xFFFFFFCF#32)).symm
      _ = op := by rw [hmask, opField_commandWord]
  rw [← hop, commandWord_fields hrsv]

/-- Settles O33. A word that fits a row is the word of a command of the row, well-formed but for the exception. -/
theorem decodeAgreesWithTheOpcodeTable : Obligations.DecodeAgreesWithTheOpcodeTable := by
  intro nopad w i row hrow
  refine ⟨fun hi => ?_, fun hfits hmode => ?_⟩
  · obtain ⟨-, rfl⟩ := decode_eq_iff.mp hi
    exact fits_encode hrow
  · suffices h : ∃ j : Instr, j.tableRow? = some row ∧ j.wellFormed nopad = true ∧ encode j = w by
      obtain ⟨j, hj, hw⟩ := h
      rwa [decode_eq_iff.mpr hw]
    cases i with
    | illegal v => cases hrow
    | encq n =>
      cases hrow
      exact ⟨.encq (fField w), rfl, rfl, (eq_commandWord_of_fits (op := 1) hfits).symm⟩
    | decq pc =>
      cases hrow
      refine ⟨.decq (fField w), rfl, ?_, (eq_commandWord_of_fits (op := 2) hfits).symm⟩
      have hfield : nopad = true ∨ fField w = 0#2 := by simpa [fField] using hmode
      simpa [Instr.wellFormed] using hfield
    | _ =>
      refine ⟨_, hrow, rfl, ?_⟩
      cases hrow
      exact (eq_of_fits_ones hfits).symm

/-! ## O26, O29, O34: what single words do -/

/-- Settles O26: decoding makes a defective word illegal, and the meaning of `illegal` is the error. -/
theorem illegalWordRaisesIllegalCmd : Obligations.IllegalWordRaisesIllegalCmd := by
  refine ⟨fun s w hdefect => ?_, fun _ _ => rfl⟩
  rw [executeWord, decode_of_isIllegalWord (isIllegalWord_iff.mpr hdefect)]
  rfl

/-- Settles O29: each word is the word of a well-formed command. -/
theorem commandWordsDecodeToTheirCommands : Obligations.CommandWordsDecodeToTheirCommands :=
  ⟨decode_eq_iff.mpr (by decide), decode_eq_iff.mpr (by decide), decode_eq_iff.mpr (by decide),
    decode_eq_iff.mpr (by decide), decode_eq_iff.mpr (by decide), decode_eq_iff.mpr (by decide),
    decode_eq_iff.mpr (by decide)⟩

/-- Settles O34: the access is a write to CMD, and decoding gives a well-formed command back from its word. -/
theorem stepRunsTheDecodedCommand : Obligations.StepRunsTheDecodedCommand := by
  have hrun {s : State} {w : Word} {rest : List HostEvent} (hs : Ready s) (hp : s.pending = wr .cmd w :: rest) :
      step s = exec (decode s.nopad w) { s with pending := rest } := step_of_wr_cmd hs hp
  refine ⟨fun s w rest hs hp => hrun hs hp, fun s i rest hs hi hp => ?_, fun s w hs => ?_⟩
  · rw [hrun hs hp, decodeOfEncodeIsTheCommand _ _ hi]
  · rw [hrun (s := s.withFetchWord 32 w) hs rfl]
    have hword : BitVec.ofNat 32 (w % 2 ^ 32) = BitVec.ofNat 32 w := BitVec.eq_of_toNat_eq (by simp)
    rw [hword]
    rfl

/-! ## O56: the bits of DIN that a command reads (R65) -/

/-- The masked quantum, byte by byte (R86). -/
theorem append_and_byteMask (b0 b1 b2 : Byte) (n : Nat) : (b0 ++ b1 ++ b2) &&& byteMask n =
    (if 0 < n then b0 else 0#8) ++ (if 1 < n then b1 else 0#8) ++ (if 2 < n then b2 else 0#8) := by
  have hmask : byteMask n = (if 0 < n then 0xFF#8 else 0#8) ++ (if 1 < n then 0xFF#8 else 0#8) ++
      (if 2 < n then 0xFF#8 else 0#8) := by
    match n with
    | 0 => rfl
    | 1 => rfl
    | 2 => rfl
    | n + 3 => simp [byteMask]
  have hbyte (c : Prop) [Decidable c] (b : Byte) : b &&& (if c then 0xFF#8 else 0#8) = if c then b else 0#8 := by
    split
    · exact BitVec.and_allOnes
    · exact BitVec.and_zero
  rw [hmask, BitVec.and_append, BitVec.and_append, hbyte, hbyte, hbyte]

/-- Only the first `n` bytes of a quantum reach its groups (R86). -/
theorem regroup8to6_congr {b0 b1 b2 c0 c1 c2 : Byte} {n : Nat} (h0 : 0 < n → b0 = c0) (h1 : 1 < n → b1 = c1)
    (h2 : 2 < n → b2 = c2) : regroup8to6 b0 b1 b2 n = regroup8to6 c0 c1 c2 n := by
  simp only [regroup8to6, append_and_byteMask, ite_congr rfl h0 fun _ => rfl, ite_congr rfl h1 fun _ => rfl,
    ite_congr rfl h2 fun _ => rfl]

/-- ENCQ's result depends on the first `n` lanes of DIN only. -/
theorem encodedWord_congr {nopad : Bool} {n : Nat} {d e : Word} (hlanes : ∀ j < n, lane d j = lane e j) :
    encodedWord nopad n d = encodedWord nopad n e := by
  simp only [encodedWord, regroup8to6_congr (hlanes 0) (hlanes 1) (hlanes 2)]

theorem trailingPads_congr {d e : Word} (hlanes : ∀ j < 4, lane d j = lane e j) :
    trailingPads d = trailingPads e := by
  simp only [trailingPads, hlanes 0 (by decide), hlanes 1 (by decide), hlanes 2 (by decide), hlanes 3 (by decide)]

/-- DECQ's pad count depends on the lanes that the mode lets it scan: all four, or none. -/
theorem decodePadCount_congr {nopad : Bool} {pc : BitVec 2} {d e : Word}
    (hlanes : ∀ j < (if nopad = true then 4 - pc.toNat else 4), lane d j = lane e j) :
    decodePadCount nopad pc d = decodePadCount nopad pc e := by
  cases nopad with
  | true => rfl
  | false => exact trailingPads_congr hlanes

theorem payloadValid_congr {r : Nat} {d e : Word} (hlanes : ∀ j < r, lane d j = lane e j) :
    payloadValid r d = payloadValid r e := by
  rw [Bool.eq_iff_iff]
  simp only [payloadValid, List.all_eq_true, List.mem_range]
  exact forall₂_congr fun i hi => by rw [hlanes i hi]

theorem decodedGroup_congr {r : Nat} {d e : Word} (hlanes : ∀ j < r, lane d j = lane e j) (i : Nat) :
    decodedGroup r i d = decodedGroup r i e :=
  ite_congr rfl (fun hi => congrArg groupOf (hlanes i hi)) fun _ => rfl

/-- DECQ's result depends on the payload lanes of DIN only. -/
theorem decodedWord_congr {p : Nat} {d e : Word} (hlanes : ∀ j < payloadSymbols p, lane d j = lane e j) :
    decodedWord p d = decodedWord p e := by
  simp only [decodedWord, decodedGroup_congr hlanes]

theorem encodeQuantum_setDin {s : State} {d : Word} {n : Nat} (hlanes : ∀ j < n, lane d j = lane s.din j) :
    encodeQuantum n { s with din := d } = { encodeQuantum n s with din := d } := by
  have hnopad : State.nopad { s with din := d } = s.nopad := rfl
  simp only [encodeQuantum, hnopad, encodedWord_congr hlanes]
  rfl

theorem decodeQuantum_setDin {s : State} {d : Word} {p : Nat}
    (hlanes : ∀ j < payloadSymbols p, lane d j = lane s.din j) :
    decodeQuantum p { s with din := d } = { decodeQuantum p s with din := d } := by
  have hnopad : State.nopad { s with din := d } = s.nopad := rfl
  simp only [decodeQuantum, hnopad, decodedWord_congr hlanes]
  rfl

theorem decqError_setDin {s : State} {d : Word} {pc : BitVec 2}
    (hpads : decodePadCount s.nopad pc d = decodePadCount s.nopad pc s.din)
    (hlanes : ∀ j < payloadSymbols (decodePadCount s.nopad pc s.din), lane d j = lane s.din j) :
    decqError pc { s with din := d } = decqError pc s := by
  have hnopad : State.nopad { s with din := d } = s.nopad := rfl
  have hfast : State.fast { s with din := d } = s.fast := rfl
  simp only [decqError, hnopad, hfast, hpads, payloadValid_congr hlanes]

/-- Settles O56: of the commands only the lookups, ENCQ and DECQ read DIN, each its own bits. -/
theorem unreadDinBitsDoNotMatter : Obligations.UnreadDinBitsDoNotMatter := by
  intro i s d hsrst hencq hdecq hgroup hbyte
  cases i with
  | encq n =>
    have hlanes := encodeQuantum_setDin (hencq n rfl)
    simp only [exec, execEncq]
    split
    · exact ⟨_, rfl, rfl⟩
    · exact ⟨_, rfl, congrArg _ hlanes⟩
  | decq pc =>
    have hread := hdecq pc rfl
    have hpads := decodePadCount_congr hread
    have hlanes : ∀ j < payloadSymbols (decodePadCount s.nopad pc s.din), lane d j = lane s.din j := by
      intro j hj
      refine hread j (lt_of_lt_of_le hj ?_)
      simp only [payloadSymbols, decodePadCount]
      split <;> omega
    have hnopad : State.nopad { s with din := d } = s.nopad := rfl
    simp only [exec, execDecq, decqError_setDin hpads hlanes, hnopad, hpads]
    cases decqError pc s with
    | some code => exact ⟨_, rfl, rfl⟩
    | none => exact ⟨_, rfl, congrArg _ (decodeQuantum_setDin hlanes)⟩
  | symof =>
    have hg : groupOperand d = groupOperand s.din := hgroup rfl
    refine ⟨_, rfl, ?_⟩
    simp only [exec, execSymof, hg]
    rfl
  | grpof =>
    have hb : byteOperand d = byteOperand s.din := hbyte (.inl rfl)
    refine ⟨_, rfl, ?_⟩
    simp only [exec, execGrpof, hb]
    rfl
  | valid =>
    have hb : byteOperand d = byteOperand s.din := hbyte (.inr rfl)
    refine ⟨_, rfl, ?_⟩
    simp only [exec, execValid, hb]
    rfl
  | srst => exact absurd rfl hsrst
  | _ => exact ⟨_, rfl, rfl⟩

end Sys2Proof.Machine

namespace Sys2Proof.Machine

open Sys2Proof

/-! ## The alphabet (spec/40_alphabet.md sections 1 and 2) -/

/-- The five ranges of the alphabet as a relation between a group and its symbol: the rows of R76's table, which R77 and
R78 read from the symbol's side. -/
inductive AlphabetRow (g : Group) (b : Byte) : Prop where
  | upper (hg : g.toNat ≤ 25) (hb : b.toNat = 0x41 + g.toNat)
  | lower (hg : 26 ≤ g.toNat ∧ g.toNat ≤ 51) (hb : b.toNat = 0x61 + (g.toNat - 26))
  | digit (hg : 52 ≤ g.toNat ∧ g.toNat ≤ 61) (hb : b.toNat = 0x30 + (g.toNat - 52))
  | plus (hg : g.toNat = 62) (hb : b.toNat = 0x2B)
  | slash (hg : g.toNat = 63) (hb : b.toNat = 0x2F)

/-- The forward LUT gives a group the symbol of its row (R76). -/
theorem AlphabetRow.symbolOf_eq {g : Group} {b : Byte} (h : AlphabetRow g b) : symbolOf g = b := by
  apply BitVec.eq_of_toNat_eq
  cases h with
  | upper hg hb =>
    rw [symbolOf, if_pos hg, BitVec.toNat_ofNat]
    omega
  | lower hg hb =>
    rw [symbolOf, if_neg (by omega), if_pos hg.2, BitVec.toNat_ofNat]
    omega
  | digit hg hb =>
    rw [symbolOf, if_neg (by omega), if_neg (by omega), if_pos hg.2, BitVec.toNat_ofNat]
    omega
  | plus hg hb => simp [symbolOf, hg, hb]
  | slash hg hb => simp [symbolOf, hg, hb]

/-- The reverse LUT gives a symbol the group of its row (R78). -/
theorem AlphabetRow.groupOf_eq {g : Group} {b : Byte} (h : AlphabetRow g b) : groupOf b = g := by
  apply BitVec.eq_of_toNat_eq
  cases h with
  | upper hg hb =>
    rw [groupOf, if_pos (by omega), BitVec.toNat_ofNat]
    omega
  | lower hg hb =>
    rw [groupOf, if_neg (by omega), if_pos (by omega), BitVec.toNat_ofNat]
    omega
  | digit hg hb =>
    rw [groupOf, if_neg (by omega), if_neg (by omega), if_pos (by omega), BitVec.toNat_ofNat]
    omega
  | plus hg hb => simp [groupOf, hg, hb]
  | slash hg hb => simp [groupOf, hg, hb]

/-- Every group stands in a row with the symbol that the forward LUT gives it. -/
theorem alphabetRow_symbolOf (g : Group) : AlphabetRow g (symbolOf g) := by
  suffices h : ∃ b, AlphabetRow g b by
    obtain ⟨b, hrow⟩ := h
    rwa [hrow.symbolOf_eq]
  have hlt : g.toNat < 64 := g.isLt
  obtain h | h | h | h | h : g.toNat ≤ 25 ∨ (26 ≤ g.toNat ∧ g.toNat ≤ 51) ∨ (52 ≤ g.toNat ∧ g.toNat ≤ 61) ∨
    g.toNat = 62 ∨ g.toNat = 63 := by omega
  · exact ⟨0x41#8 + g.setWidth 8, .upper h (by bv_omega)⟩
  · exact ⟨0x47#8 + g.setWidth 8, .lower h (by bv_omega)⟩
  · exact ⟨g.setWidth 8 - 0x04#8, .digit h (by bv_omega)⟩
  · exact ⟨0x2B#8, .plus h rfl⟩
  · exact ⟨0x2F#8, .slash h rfl⟩

/-- The ranges of R77. -/
theorem isValidSymbol_iff {b : Byte} : isValidSymbol b = true ↔
    (0x41#8 ≤ b ∧ b ≤ 0x5A#8) ∨ (0x61#8 ≤ b ∧ b ≤ 0x7A#8) ∨ (0x30#8 ≤ b ∧ b ≤ 0x39#8) ∨ b = 0x2B#8 ∨ b = 0x2F#8 := by
  simp [isValidSymbol, or_assoc, BitVec.le_def, ← BitVec.toNat_inj]

/-- The valid bytes are the symbols of the rows. -/
theorem isValidSymbol_iff_exists_alphabetRow {b : Byte} : isValidSymbol b = true ↔ ∃ g, AlphabetRow g b := by
  rw [isValidSymbol_iff]
  constructor
  · rintro (h | h | h | rfl | rfl)
    · exact ⟨(b - 0x41#8).setWidth 6, .upper (by bv_omega) (by bv_omega)⟩
    · exact ⟨(b - 0x47#8).setWidth 6, .lower (by bv_omega) (by bv_omega)⟩
    · exact ⟨(b + 0x04#8).setWidth 6, .digit (by bv_omega) (by bv_omega)⟩
    · exact ⟨62#6, .plus rfl rfl⟩
    · exact ⟨63#6, .slash rfl rfl⟩
  · rintro ⟨g, h⟩
    cases h <;> bv_omega

/-- A valid byte stands in a row with the group that the reverse LUT gives it. -/
theorem alphabetRow_groupOf {b : Byte} (hb : isValidSymbol b = true) : AlphabetRow (groupOf b) b := by
  obtain ⟨g, hrow⟩ := isValidSymbol_iff_exists_alphabetRow.mp hb
  rwa [hrow.groupOf_eq]

/-- Outside the alphabet the reverse LUT gives INVALID_DEFAULT (R79). -/
theorem groupOf_of_not_isValidSymbol {b : Byte} (hb : isValidSymbol b = false) : groupOf b = Config.invalidDefault := by
  rw [← Bool.not_eq_true, isValidSymbol_iff] at hb
  simp only [not_or] at hb
  obtain ⟨hupper, hlower, hdigit, hplus, hslash⟩ := hb
  rw [groupOf, if_neg (by bv_omega), if_neg (by bv_omega), if_neg (by bv_omega), if_neg (by bv_omega),
    if_neg (by bv_omega)]

/-! ## O4 to O6: the contents of the LUTs -/

/-- Settles O4: the table entry by entry, and the rows of the alphabet read from the group's side. -/
theorem forwardLutIsTheRomTable : Obligations.ForwardLutIsTheRomTable := by
  refine ⟨rfl, by decide, fun g => ⟨fun h => ?_, fun h => ?_, fun h => ?_, fun h => ?_, fun h => ?_⟩⟩
  · exact AlphabetRow.symbolOf_eq (.upper (by bv_omega) (by bv_omega))
  · exact AlphabetRow.symbolOf_eq (.lower (by bv_omega) (by bv_omega))
  · exact AlphabetRow.symbolOf_eq (.digit (by bv_omega) (by bv_omega))
  · exact AlphabetRow.symbolOf_eq (.plus (by bv_omega) rfl)
  · exact AlphabetRow.symbolOf_eq (.slash (by bv_omega) rfl)

/-- How many bytes are valid (R77). -/
theorem length_filter_isValidSymbol :
    ((List.range 256).filter fun n => isValidSymbol (BitVec.ofNat 8 n)).length = 64 := by
  decide

/-- Settles O5: the pad byte is outside the ranges, and so is every byte past them. -/
theorem validityPredicateHoldsForTheAlphabet : Obligations.ValidityPredicateHoldsForTheAlphabet := by
  refine ⟨fun _ => isValidSymbol_iff, length_filter_isValidSymbol, isValidSymbol_pad, fun b hb => ?_⟩
  rw [← Bool.not_eq_true, isValidSymbol_iff]
  bv_omega

/-- Settles O6: the rows of the alphabet read from the symbol's side; 192 bytes are left of 256. -/
theorem reverseLutGivesGroupsAndZero : Obligations.ReverseLutGivesGroupsAndZero := by
  refine ⟨fun b => ⟨fun h => ?_, fun h => ?_, fun h => ?_, ?_, ?_, groupOf_of_not_isValidSymbol, ?_, ?_⟩, ?_,
    groupOf_of_not_isValidSymbol isValidSymbol_pad⟩
  · have hrow : AlphabetRow ((b - 0x41#8).setWidth 6) b := .upper (by bv_omega) (by bv_omega)
    rw [hrow.groupOf_eq]
    bv_omega
  · have hrow : AlphabetRow ((b - 0x47#8).setWidth 6) b := .lower (by bv_omega) (by bv_omega)
    rw [hrow.groupOf_eq]
    bv_omega
  · have hrow : AlphabetRow ((b + 0x04#8).setWidth 6) b := .digit (by bv_omega) (by bv_omega)
    rw [hrow.groupOf_eq]
    bv_omega
  · rintro rfl
    exact AlphabetRow.groupOf_eq (.plus rfl rfl)
  · rintro rfl
    exact AlphabetRow.groupOf_eq (.slash rfl rfl)
  · rw [reverseEntry, BitVec.getLsbD_append]
    simp
  · exact BitVec.extractLsb'_append_eq_right
  · have hsplit := List.length_eq_length_filter_add (l := List.range 256) fun n => isValidSymbol (BitVec.ofNat 8 n)
    rw [length_filter_isValidSymbol, List.length_range] at hsplit
    omega

/-! ## O7, O8: the LUTs are inverse -/

/-- Settles O7: a group and its symbol stand in one row, which either LUT reads. -/
theorem lutsAreInverseOnTheAlphabet : Obligations.LutsAreInverseOnTheAlphabet :=
  ⟨fun g => ⟨(alphabetRow_symbolOf g).groupOf_eq, isValidSymbol_iff_exists_alphabetRow.mpr ⟨g, alphabetRow_symbolOf g⟩⟩,
    fun _ hb => (alphabetRow_groupOf hb).symbolOf_eq⟩

/-- Settles O8: what has a left inverse is injective, and the image is where the inverse is one. -/
theorem forwardLutImageIsTheValidBytes : Obligations.ForwardLutImageIsTheValidBytes := by
  obtain ⟨hgroup, hsymbol⟩ := lutsAreInverseOnTheAlphabet
  refine ⟨Function.LeftInverse.injective fun g => (hgroup g).1, fun b => ⟨fun hb => ⟨groupOf b, hsymbol b hb⟩, ?_⟩⟩
  rintro ⟨g, rfl⟩
  exact (hgroup g).2

/-! ## O1 to O3: the lookup commands -/

/-- Settles O1: the corner values are the first and the last symbol, and the end of the upper-case row. -/
theorem symofLooksUpTheSymbol : Obligations.SymofLooksUpTheSymbol :=
  ⟨fun nopad => decodeOfEncodeIsTheCommand nopad .symof rfl, fun _ => rfl,
    AlphabetRow.symbolOf_eq (.upper (by decide) rfl), AlphabetRow.symbolOf_eq (.slash rfl rfl),
    AlphabetRow.symbolOf_eq (.upper (by decide) rfl)⟩

/-- The tagged result of R84: the valid bit at bit 8, the group below it. -/
def taggedGroup (valid : Bool) (g : Group) : Word := (BitVec.ofBool valid ++ 0#2 ++ g).setWidth 32

theorem taggedGroup_fields : ∀ (valid : Bool) (g : Group),
    (taggedGroup valid g).getLsbD 8 = valid ∧ (taggedGroup valid g).extractLsb' 0 6 = g ∧
      (taggedGroup valid g).extractLsb' 6 2 = 0#2 ∧ (taggedGroup valid g).extractLsb' 9 23 = 0#23 := by
  decide

/-- The word that GRPOF gives for a byte. -/
def grpofWord (b : Byte) : Word := taggedGroup (isValidSymbol b) (groupOf b)

theorem exec_grpof (s : State) : exec .grpof s = .next (writeResult (grpofWord (byteOperand s.din)) 1 0 s) := rfl

/-- Settles O2: the fields of the tagged result, and the result for each corner byte. -/
theorem grpofGivesTheTaggedGroup : Obligations.GrpofGivesTheTaggedGroup := by
  refine ⟨fun nopad => decodeOfEncodeIsTheCommand nopad .grpof rfl, fun s => ?_⟩
  obtain ⟨hvalid, hgroup, hgap, hhigh⟩ :=
    taggedGroup_fields (isValidSymbol (byteOperand s.din)) (groupOf (byteOperand s.din))
  have hcorner {b : Byte} {d : Word} (hd : grpofWord b = d) (hb : byteOperand s.din = b) :
      grpofWord (byteOperand s.din) = d := by rw [hb, hd]
  exact ⟨grpofWord (byteOperand s.din), exec_grpof s, hvalid, hgroup, hgap, hhigh, hcorner (by decide),
    hcorner (by decide), hcorner (by decide), hcorner (by decide), hcorner (by decide), hcorner (by decide)⟩

/-- Settles O3: the bytes named are the ends of the ranges, and bytes outside them. -/
theorem validTestsTheByte : Obligations.ValidTestsTheByte :=
  ⟨fun nopad => decodeOfEncodeIsTheCommand nopad .valid rfl, fun _ => rfl, by decide, by decide⟩

end Sys2Proof.Machine

namespace Sys2Proof.Machine

open Sys2Proof

/-! ## The regrouper (spec/41_regrouper.md): the bit stream of a word (R48) -/

@[simp] theorem length_bitsOf {k : Nat} (v : BitVec k) : (bitsOf v).length = k := by
  simp [bitsOf]

@[simp] theorem bitsOf_zero (k : Nat) : bitsOf 0#k = List.replicate k false := by
  simp [bitsOf]

/-- Words put side by side put their bits one after the other, the left word's first. -/
theorem bitsOf_append {k l : Nat} (x : BitVec k) (y : BitVec l) : bitsOf (x ++ y) = bitsOf x ++ bitsOf y := by
  apply List.ext_getElem (by simp)
  intro i hi _
  have hi' : i < k + l := by simpa using hi
  simp only [bitsOf, List.getElem_map, List.getElem_range, BitVec.getLsbD_append, List.getElem_append,
    List.length_map, List.length_range]
  split
  · rw [dif_neg (by omega), show k + l - 1 - i = l - 1 - (i - k) by omega]
  · rw [dif_pos (by omega), show k + l - 1 - i - l = k - 1 - i by omega]

/-- The bits of the first `n` bytes, zero bits for the others: what R86 keeps of a quantum and what R91 outputs. -/
theorem bitsOf_firstBytes (b0 b1 b2 : Byte) {n : Nat} (hn : n ≤ 3) :
    bitsOf (if 0 < n then b0 else 0#8) ++ bitsOf (if 1 < n then b1 else 0#8) ++ bitsOf (if 2 < n then b2 else 0#8) =
      (bitsOf b0 ++ bitsOf b1 ++ bitsOf b2).take (8 * n) ++ List.replicate (24 - 8 * n) false := by
  interval_cases n <;> simp [List.take_append, List.take_of_length_le]

/-- The quantum that four groups make. -/
def Groups.quantum (q : Groups) : Quantum := q.g0 ++ q.g1 ++ q.g2 ++ q.g3

theorem Groups.bitsOf_quantum (q : Groups) :
    bitsOf q.quantum = bitsOf q.g0 ++ bitsOf q.g1 ++ bitsOf q.g2 ++ bitsOf q.g3 := by
  change bitsOf (k := 6 + 6 + 6 + 6) _ = _
  rw [Groups.quantum, bitsOf_append, bitsOf_append, bitsOf_append]

/-- The groups in stream order. -/
def Groups.toList (q : Groups) : List Group := [q.g0, q.g1, q.g2, q.g3]

theorem Groups.bitsOf_quantum_eq_flatMap (q : Groups) : bitsOf q.quantum = q.toList.flatMap bitsOf := by
  simp [Groups.bitsOf_quantum, Groups.toList]

theorem bitsOf_bytes (b0 b1 b2 : Byte) : bitsOf (k := 24) (b0 ++ b1 ++ b2) = bitsOf b0 ++ bitsOf b1 ++ bitsOf b2 := by
  change bitsOf (k := 8 + 8 + 8) _ = _
  rw [bitsOf_append, bitsOf_append]

/-- The groups of an encode quantum make up its masked bytes (R86). -/
theorem quantum_regroup8to6 (b0 b1 b2 : Byte) (n : Nat) : (regroup8to6 b0 b1 b2 n).quantum =
    (if 0 < n then b0 else 0#8) ++ (if 1 < n then b1 else 0#8) ++ (if 2 < n then b2 else 0#8) := by
  rw [← append_and_byteMask]
  simp only [Groups.quantum, regroup8to6]
  rw [BitVec.extractLsb'_append_extractLsb'_eq_extractLsb' (by decide),
    BitVec.extractLsb'_append_extractLsb'_eq_extractLsb' (by decide),
    BitVec.extractLsb'_append_extractLsb'_eq_extractLsb' (by decide)]
  exact BitVec.extractLsb'_eq_self

/-- The bits of a quantum of three bytes, byte by byte. -/
theorem getLsbD_bytes (b0 b1 b2 : Byte) (i : Nat) : BitVec.getLsbD (w := 24) (b0 ++ b1 ++ b2) i =
    if i < 8 then b2.getLsbD i else if i < 16 then b1.getLsbD (i - 8) else b0.getLsbD (i - 16) := by
  change BitVec.getLsbD (w := 8 + 8 + 8) (b0 ++ b1 ++ b2) i = _
  simp only [BitVec.getLsbD_append]
  grind

/-- The bytes of a decode quantum are the first `a` of the bytes that its groups make up (R91). -/
theorem regroup6to8_of_quantum {q : Groups} {b0 b1 b2 : Byte} (hq : q.quantum = b0 ++ b1 ++ b2) (a : Nat) :
    regroup6to8 q a = { c0 := if 0 < a then b0 else 0#8, c1 := if 1 < a then b1 else 0#8,
                        c2 := if 2 < a then b2 else 0#8 } := by
  have h0 : q.quantum.extractLsb' 16 8 = b0 := extractLsb'_eq_of_getLsbD (by grind [getLsbD_bytes])
  have h1 : q.quantum.extractLsb' 8 8 = b1 := extractLsb'_eq_of_getLsbD (by grind [getLsbD_bytes])
  have h2 : q.quantum.extractLsb' 0 8 = b2 := extractLsb'_eq_of_getLsbD (by grind [getLsbD_bytes])
  rw [← h0, ← h1, ← h2]
  rfl

/-- The bytes that four groups make up, cut from the groups. -/
theorem Groups.quantum_eq_bytes (q : Groups) : q.quantum =
    (q.g0 ++ q.g1.extractLsb' 4 2) ++ (q.g1.extractLsb' 0 4 ++ q.g2.extractLsb' 2 4) ++
      (q.g2.extractLsb' 0 2 ++ q.g3) := by
  apply BitVec.eq_of_getLsbD_eq
  intro i hi
  simp only [Groups.quantum, BitVec.getLsbD_append, BitVec.getLsbD_extractLsb']
  grind

/-- The groups of an encode quantum, cut from its masked bytes. -/
theorem regroup8to6_eq (b0 b1 b2 : Byte) (n : Nat) : regroup8to6 b0 b1 b2 n =
    let c0 := if 0 < n then b0 else 0#8
    let c1 := if 1 < n then b1 else 0#8
    let c2 := if 2 < n then b2 else 0#8
    { g0 := c0.extractLsb' 2 6, g1 := c0.extractLsb' 0 2 ++ c1.extractLsb' 4 4,
      g2 := c1.extractLsb' 0 4 ++ c2.extractLsb' 6 2, g3 := c2.extractLsb' 0 6 } := by
  simp only [regroup8to6, append_and_byteMask]
  generalize (if 0 < n then b0 else 0#8) = c0, (if 1 < n then b1 else 0#8) = c1, (if 2 < n then b2 else 0#8) = c2
  congr 1 <;> exact extractLsb'_eq_of_getLsbD (by grind [getLsbD_bytes])

/-- The groups of one byte: zero bits below its last two (R88). -/
theorem regroup8to6_one (b0 b1 b2 : Byte) : regroup8to6 b0 b1 b2 1 =
    { g0 := b0.extractLsb' 2 6, g1 := b0.extractLsb' 0 2 ++ 0#4, g2 := 0#6, g3 := 0#6 } := by
  simp [regroup8to6_eq]

/-- The groups of two bytes: zero bits below the last four (R88). -/
theorem regroup8to6_two (b0 b1 b2 : Byte) : regroup8to6 b0 b1 b2 2 =
    { g0 := b0.extractLsb' 2 6, g1 := b0.extractLsb' 0 2 ++ b1.extractLsb' 4 4, g2 := b1.extractLsb' 0 4 ++ 0#2,
      g3 := 0#6 } := by
  simp [regroup8to6_eq]

/-- The groups past the payload of an encode quantum are 0 (R86, R87). -/
theorem regroup8to6_g2_eq_zero (b0 b1 b2 : Byte) {n : Nat} (hr : payloadGroups n ≤ 2) :
    (regroup8to6 b0 b1 b2 n).g2 = 0#6 := by
  have hn : ¬ 1 < n ∧ ¬ 2 < n := by
    unfold payloadGroups at hr
    omega
  simp [regroup8to6_eq, hn]

theorem regroup8to6_g3_eq_zero (b0 b1 b2 : Byte) {n : Nat} (hr : payloadGroups n ≤ 3) :
    (regroup8to6 b0 b1 b2 n).g3 = 0#6 := by
  have hn : ¬ 2 < n := by
    unfold payloadGroups at hr
    omega
  simp [regroup8to6_eq, hn]

/-- Regrouping to groups and back keeps the first `n` bytes (R96). -/
theorem regroup6to8_regroup8to6 (b0 b1 b2 : Byte) (n : Nat) : regroup6to8 (regroup8to6 b0 b1 b2 n) n =
    { c0 := if 0 < n then b0 else 0#8, c1 := if 1 < n then b1 else 0#8, c2 := if 2 < n then b2 else 0#8 } := by
  rw [regroup6to8_of_quantum (quantum_regroup8to6 b0 b1 b2 n)]
  simp +contextual

/-! ## O9 to O11: the bits of a quantum -/

/-- The bits of the groups of an encode quantum are the bits of its bytes, zeros past the first `n` (R86). -/
theorem bitsOf_regroup8to6 (b0 b1 b2 : Byte) {n : Nat} (hn : n ≤ 3) :
    bitsOf (regroup8to6 b0 b1 b2 n).quantum =
      (bitsOf b0 ++ bitsOf b1 ++ bitsOf b2).take (8 * n) ++ List.replicate (24 - 8 * n) false := by
  rw [quantum_regroup8to6, bitsOf_bytes, bitsOf_firstBytes b0 b1 b2 hn]

/-- Settles O9: the groups are the slices by definition, and their bits are those of the masked bytes. -/
theorem regroupToGroupsSlicesTheBitStream : Obligations.RegroupToGroupsSlicesTheBitStream := by
  intro b0 b1 b2 n hn
  refine ⟨?_, ?_⟩
  · interval_cases n <;> rfl
  · exact (Groups.bitsOf_quantum _).symm.trans (bitsOf_regroup8to6 b0 b1 b2 hn)

/-- Settles O10: the groups make up three bytes, and the output is the first `a` of them. -/
theorem regroupToBytesSlicesTheBitStream : Obligations.RegroupToBytesSlicesTheBitStream := by
  intro q a ha1 ha3
  refine ⟨?_, ?_⟩
  · have h0 : 0 < a := ha1
    simp [regroup6to8, h0]
  · rw [← Groups.bitsOf_quantum, q.quantum_eq_bytes, bitsOf_bytes, ← bitsOf_firstBytes _ _ _ ha3,
      regroup6to8_of_quantum q.quantum_eq_bytes]

/-- Settles O11: below the bits of the last byte kept, the last payload group has only zeros. -/
theorem partialQuantumIsPaddedWithZeroBits : Obligations.PartialQuantumIsPaddedWithZeroBits := by
  refine ⟨rfl, rfl, rfl, rfl, fun b0 b1 b2 => ⟨?_, ?_, rfl⟩⟩
  · rw [regroup8to6_one]
    exact BitVec.extractLsb'_append_eq_right
  · rw [regroup8to6_two]
    exact BitVec.extractLsb'_append_eq_right

/-! ## O13: the round trip of a quantum -/

/-- Settles O13: the groups past the payload are 0 already. -/
theorem regroupingRoundTripsAQuantum : Obligations.RegroupingRoundTripsAQuantum := by
  intro b0 b1 b2 n hn1 hn3
  have hg2 : (if 2 < payloadGroups n then (regroup8to6 b0 b1 b2 n).g2 else 0#6) = (regroup8to6 b0 b1 b2 n).g2 :=
    ite_eq_left_iff.mpr fun hr => (regroup8to6_g2_eq_zero b0 b1 b2 (not_lt.mp hr)).symm
  have hg3 : (if 3 < payloadGroups n then (regroup8to6 b0 b1 b2 n).g3 else 0#6) = (regroup8to6 b0 b1 b2 n).g3 :=
    ite_eq_left_iff.mpr fun hr => (regroup8to6_g3_eq_zero b0 b1 b2 (not_lt.mp hr)).symm
  have h0 : 0 < n := hn1
  simpa only [hg2, hg3, h0, if_true] using regroup6to8_regroup8to6 b0 b1 b2 n

/-! ## O12: quantum by quantum is the whole sequence -/

theorem groupOfBits_bitsOf : ∀ g : Group, groupOfBits (bitsOf g) = g := by decide

/-- Only the first six bits make the group. -/
theorem groupOfBits_bitsOf_append (g : Group) (bits : List Bool) : groupOfBits (bitsOf g ++ bits) = g :=
  groupOfBits_bitsOf g

/-- Slicing the bits of groups gives the groups, then the slices of what follows. -/
theorem sliceGroups_bitsOf_append (gs : List Group) (count : Nat) (bits : List Bool) :
    sliceGroups (gs.length + count) (gs.flatMap bitsOf ++ bits) = gs ++ sliceGroups count bits := by
  induction gs with
  | nil => simp
  | cons g gs ih =>
    rw [List.length_cons, Nat.succ_add, sliceGroups, List.flatMap_cons, List.append_assoc,
      groupOfBits_bitsOf_append, List.drop_left' (length_bitsOf g), ih, List.cons_append]

/-- The first groups that the bits of groups give. -/
theorem sliceGroups_flatMap_bitsOf {gs : List Group} {count : Nat} (hcount : count ≤ gs.length) :
    sliceGroups count (gs.flatMap bitsOf) = gs.take count := by
  have hslice := sliceGroups_bitsOf_append (gs.take count) 0 ((gs.drop count).flatMap bitsOf)
  rwa [← List.flatMap_append, List.take_append_drop, List.length_take_of_le hcount, sliceGroups, List.append_nil]
    at hslice

theorem getD_append_zeros (bits : List Bool) (k i : Nat) :
    (bits ++ List.replicate k false).getD i false = bits.getD i false := by
  grind

/-- Missing bits on the right are 0 (R88). -/
theorem groupOfBits_append_zeros (bits : List Bool) (k : Nat) :
    groupOfBits (bits ++ List.replicate k false) = groupOfBits bits := by
  simp only [groupOfBits, getD_append_zeros]

theorem sliceGroups_append_zeros (count : Nat) (bits : List Bool) (k : Nat) :
    sliceGroups count (bits ++ List.replicate k false) = sliceGroups count bits := by
  induction count generalizing bits k with
  | zero => rfl
  | succ count ih => rw [sliceGroups, sliceGroups, groupOfBits_append_zeros, List.drop_append, List.drop_replicate, ih]

@[simp] theorem length_sliceGroups (count : Nat) (bits : List Bool) : (sliceGroups count bits).length = count := by
  induction count generalizing bits with
  | zero => rfl
  | succ count ih => rw [sliceGroups, List.length_cons, ih]

theorem payloadGroups_le_four {n : Nat} (hn : n ≤ 3) : payloadGroups n ≤ 4 := by
  unfold payloadGroups
  omega

/-- The payload of a quantum is cut from the bits of its first `n` bytes (R86, R87). -/
theorem quantumPayload_eq_sliceGroups (b0 b1 b2 : Byte) {n : Nat} (hn : n ≤ 3) : quantumPayload b0 b1 b2 n =
    sliceGroups (payloadGroups n) ((bitsOf b0 ++ bitsOf b1 ++ bitsOf b2).take (8 * n)) := by
  rw [← sliceGroups_append_zeros _ _ (24 - 8 * n), ← bitsOf_regroup8to6 b0 b1 b2 hn,
    Groups.bitsOf_quantum_eq_flatMap, sliceGroups_flatMap_bitsOf (payloadGroups_le_four hn)]
  rfl

/-- The whole-sequence function takes a full quantum off the front: no group straddles two quanta (R90). -/
theorem bytesToGroups_cons_quantum (b0 b1 b2 : Byte) (rest : List Byte) :
    bytesToGroups (b0 :: b1 :: b2 :: rest) = quantumPayload b0 b1 b2 3 ++ bytesToGroups rest := by
  have hcount : payloadGroups (rest.length + 3) = 4 + payloadGroups rest.length := by
    unfold payloadGroups
    omega
  have hbits : bitsOf b0 ++ bitsOf b1 ++ bitsOf b2 = (regroup8to6 b0 b1 b2 3).toList.flatMap bitsOf := by
    rw [← Groups.bitsOf_quantum_eq_flatMap, quantum_regroup8to6]
    exact (bitsOf_bytes b0 b1 b2).symm
  calc bytesToGroups (b0 :: b1 :: b2 :: rest)
    _ = sliceGroups (payloadGroups (rest.length + 3))
          (bitsOf b0 ++ bitsOf b1 ++ bitsOf b2 ++ rest.flatMap bitsOf) := by simp [bytesToGroups]
    _ = (regroup8to6 b0 b1 b2 3).toList ++ bytesToGroups rest := by
      rw [hcount, hbits]
      exact sliceGroups_bitsOf_append (regroup8to6 b0 b1 b2 3).toList _ _

theorem quantaPayload_eq_bytesToGroups (xs : List Byte) : quantaPayload xs = bytesToGroups xs := by
  induction xs using quantaPayload.induct with
  | case1 b0 b1 b2 rest ih => rw [quantaPayload, ih, bytesToGroups_cons_quantum]
  | case2 b0 b1 =>
    rw [quantaPayload, quantumPayload_eq_sliceGroups _ _ _ (by decide)]
    simp [bytesToGroups, List.take_append, List.take_of_length_le]
  | case3 b0 =>
    rw [quantaPayload, quantumPayload_eq_sliceGroups _ _ _ (by decide)]
    simp [bytesToGroups]
  | case4 => rfl

/-- Settles O12, by induction over the quanta. -/
theorem quantaRegroupAsTheWholeSequence : Obligations.QuantaRegroupAsTheWholeSequence := by
  intro xs
  rw [quantaPayload_eq_bytesToGroups]
  exact ⟨rfl, length_sliceGroups _ _⟩

/-! ## What a quantum's encode and decode do with its lanes (R112, R114) -/

theorem payloadValid_iff {r : Nat} {din : Word} :
    payloadValid r din = true ↔ ∀ i < r, isValidSymbol (lane din i) = true := by
  simp [payloadValid]

/-- The scan finds `p` pads when the last `p` lanes are pads and the one before is not (R103). -/
theorem trailingPads_eq_iff {din : Word} {p : Nat} (hp : p ≤ 3) : trailingPads din = p ↔
    (∀ i < 4, 4 - p ≤ i → lane din i = Config.padSymbol) ∧ lane din (3 - p) ≠ Config.padSymbol := by
  simp only [trailingPads, leadingPads, Nat.forall_lt_succ_right]
  interval_cases p <;> grind

/-- DECQ of a quantum that passes its checks (R114). -/
theorem exec_decq_of_valid {s : State} {pc : BitVec 2} {p : Nat} (hfield : s.nopad = true ∨ pc = 0#2)
    (hopen : s.status.final = false) (hpads : decodePadCount s.nopad pc s.din = p) (hp : p ≤ 2)
    (hvalid : s.fast = true ∨ payloadValid (payloadSymbols p) s.din = true) :
    exec (.decq pc) s = .next (decodeQuantum p s) := by
  subst hpads
  have hok : decqError pc s = none := decqError_eq_none.mpr ⟨hfield, hopen, hp, hvalid⟩
  simp only [exec, execDecq, hok]

/-- The groups that a decode quantum with `r` payload symbols gives the regrouper (R93). -/
def decodedGroups (r : Nat) (din : Word) : Groups :=
  { g0 := decodedGroup r 0 din, g1 := decodedGroup r 1 din, g2 := decodedGroup r 2 din, g3 := decodedGroup r 3 din }

/-- The DOUT word of three decoded bytes (R114). -/
def Bytes.word (c : Bytes) : Word := ofLanes c.c0 c.c1 c.c2 0x00#8

theorem decodedWord_eq (p : Nat) (din : Word) :
    decodedWord p din = (regroup6to8 (decodedGroups (payloadSymbols p) din) (decodedBytes p)).word := rfl

/-! ## O18: the bits beyond the payload -/

/-- With one pad the low two bits of the third group reach no byte (R92). -/
theorem regroup6to8_two_congr {q q' : Groups} (h0 : q.g0 = q'.g0) (h1 : q.g1 = q'.g1)
    (h2 : q.g2.extractLsb' 2 4 = q'.g2.extractLsb' 2 4) : regroup6to8 q 2 = regroup6to8 q' 2 := by
  simp [regroup6to8_of_quantum (Groups.quantum_eq_bytes _), h0, h1, h2]

/-- With two pads the low four bits of the second group reach no byte (R92). -/
theorem regroup6to8_one_congr {q q' : Groups} (h0 : q.g0 = q'.g0)
    (h1 : q.g1.extractLsb' 4 2 = q'.g1.extractLsb' 4 2) : regroup6to8 q 1 = regroup6to8 q' 1 := by
  simp [regroup6to8_of_quantum (Groups.quantum_eq_bytes _), h0, h1]

/-- Groups that agree from bit `m` up have the same bits there. -/
theorem extractLsb'_congr_of_le {g h : Group} {m : Nat} (len : Nat)
    (hbits : ∀ k, m ≤ k → g.getLsbD k = h.getLsbD k) : g.extractLsb' m len = h.extractLsb' m len := by
  apply BitVec.eq_of_getLsbD_eq
  intro i _
  rw [BitVec.getLsbD_extractLsb', BitVec.getLsbD_extractLsb', hbits _ (Nat.le_add_right m i)]

/-- DECQ of a padded quantum does not read the bits beyond the payload (R94). -/
theorem decodedWord_congr_tail {p : Nat} {d e : Word} (hp0 : 0 < p) (hp2 : p ≤ 2)
    (hlanes : ∀ i < 3 - p, lane d i = lane e i)
    (hlast : ∀ k, 2 * p ≤ k → (groupOf (lane d (3 - p))).getLsbD k = (groupOf (lane e (3 - p))).getLsbD k) :
    decodedWord p d = decodedWord p e := by
  have hgroup (i : Nat) (hi : i < 3 - p) :
      decodedGroup (payloadSymbols p) i d = decodedGroup (payloadSymbols p) i e := by
    simp only [decodedGroup, hlanes i hi]
  rw [decodedWord_eq, decodedWord_eq]
  obtain rfl | rfl : p = 1 ∨ p = 2 := by omega
  · exact congrArg Bytes.word (regroup6to8_two_congr (hgroup 0 (by decide)) (hgroup 1 (by decide))
      (extractLsb'_congr_of_le 4 hlast))
  · exact congrArg Bytes.word (regroup6to8_one_congr (hgroup 0 (by decide)) (extractLsb'_congr_of_le 2 hlast))

/-- `Zg==` and `Zh==` decode to `f` (R94). -/
theorem exec_decq_padded_f {s : State} {d : Word} (hopen : s.status.final = false) (hnopad : s.nopad = false)
    (hd : d = 0x5A673D3D#32 ∨ d = 0x5A683D3D#32) :
    ∃ t, exec (.decq 0#2) { s with din := d } = .next t ∧ t.dout = 0x66000000#32 ∧ RecordsNoError s t := by
  have hpads : trailingPads d = 2 := by rcases hd with rfl | rfl <;> decide
  have hvalid : payloadValid 2 d = true := by rcases hd with rfl | rfl <;> decide
  have hword : decodedWord 2 d = 0x66000000#32 := by rcases hd with rfl | rfl <;> decide
  have hmode : decodePadCount s.nopad 0#2 d = 2 := by
    rw [hnopad]
    exact hpads
  exact ⟨_, exec_decq_of_valid (.inr rfl) hopen hmode (by decide) (.inr hvalid), hword, rfl, rfl, rfl⟩

/-- DECQ's pad count does not depend on the last payload symbol, if it is a symbol (R94, R103). -/
theorem decodePadCount_congr_tail {nopad : Bool} {pc : BitVec 2} {p : Nat} {d e : Word} (hp : p ≤ 2)
    (he : decodePadCount nopad pc e = p) (hpads : ∀ i, 4 - p ≤ i → i < 4 → lane d i = lane e i)
    (hvalid : isValidSymbol (lane d (3 - p)) = true) : decodePadCount nopad pc d = p := by
  cases nopad with
  | true => exact he
  | false =>
    obtain ⟨hscan, -⟩ := (trailingPads_eq_iff (by omega)).mp (show trailingPads e = p from he)
    refine (trailingPads_eq_iff (by omega)).mpr ⟨fun i hi hip => ?_, fun hpad => ?_⟩
    · rw [hpads i hip hi, hscan i hi hip]
    · rw [hpad, isValidSymbol_pad] at hvalid
      cases hvalid

/-- The payload stays valid when only its last symbol changes, to another symbol. -/
theorem payloadValid_congr_tail {p : Nat} {d e : Word} (hlanes : ∀ i < 3 - p, lane d i = lane e i)
    (hsymbol : isValidSymbol (lane d (3 - p)) = true) (he : payloadValid (payloadSymbols p) e = true) :
    payloadValid (payloadSymbols p) d = true := by
  refine payloadValid_iff.mpr fun i hi => ?_
  rcases Nat.lt_or_ge i (3 - p) with hlt | hge
  · rw [hlanes i hlt]
    exact payloadValid_iff.mp he i hi
  · obtain rfl : i = 3 - p := by
      unfold payloadSymbols at hi
      omega
    exact hsymbol

/-- A DECQ that decodes gives the same for a quantum that differs in the bits beyond the payload (R94). -/
theorem exec_decq_setDin_tail {s : State} {pc : BitVec 2} {p : Nat} {d : Word} (hok : decqError pc s = none)
    (hpad : decodePadCount s.nopad pc s.din = p) (hp0 : 0 < p) (hlanes : ∀ i < 3 - p, lane d i = lane s.din i)
    (hpads : ∀ i, 4 - p ≤ i → i < 4 → lane d i = lane s.din i) (hsymbol : isValidSymbol (lane d (3 - p)) = true)
    (htail : ∀ k, 2 * p ≤ k → (groupOf (lane d (3 - p))).getLsbD k = (groupOf (lane s.din (3 - p))).getLsbD k) :
    exec (.decq pc) { s with din := d } = .next { decodeQuantum p s with din := d } := by
  obtain ⟨hfield, hopen, hp, hvalid⟩ := decqError_eq_none.mp hok
  rw [hpad] at hp hvalid
  have hword : decodedWord p d = decodedWord p s.din := decodedWord_congr_tail hp0 hp hlanes htail
  have hstate : decodeQuantum p { s with din := d } = { decodeQuantum p s with din := d } := by
    simp only [decodeQuantum, hword]
    rfl
  rw [exec_decq_of_valid (s := { s with din := d }) hfield hopen (decodePadCount_congr_tail hp hpad hpads hsymbol) hp
    (hvalid.imp_right (payloadValid_congr_tail hlanes hsymbol)), hstate]

/-- Settles O18: PADCNT of a quantum that decoded is its pad count, and the example is decoded twice. -/
theorem decqDropsNonCanonicalTailBits : Obligations.DecqDropsNonCanonicalTailBits := by
  refine ⟨fun s t d pc hx hnout hpadcnt => ?_, fun s hopen hnopad => ?_⟩
  · rcases execDecq_cases hx with ⟨code, -, rfl⟩ | ⟨hok, rfl⟩
    · exact absurd rfl hnout
    · obtain ⟨-, -, hp, -⟩ := decqError_eq_none.mp hok
      generalize hpad : decodePadCount s.nopad pc s.din = p at hp hpadcnt ⊢
      have hpadcnt_eq : (decodeQuantum p s).status.padcnt.toNat = p := Nat.mod_eq_of_lt (by omega)
      rw [hpadcnt_eq]
      exact exec_decq_setDin_tail hok hpad ((padcnt_ne_zero_iff hp).mp hpadcnt)
  · obtain ⟨t, ht, htdout, -⟩ := exec_decq_padded_f (d := 0x5A673D3D#32) hopen hnopad (.inl rfl)
    obtain ⟨u, hu, hudout, hrecord⟩ := exec_decq_padded_f (d := 0x5A683D3D#32) hopen hnopad (.inr rfl)
    exact ⟨t, u, ht, hu, htdout, hudout.trans htdout.symm, hrecord⟩

/-! ## O19: the round trip of a quantum at the register port -/

/-- The group at a position of a quantum. -/
def Groups.get (q : Groups) (i : Nat) : Group := q.toList.getD i 0#6

/-- The groups that ENCQ N cuts from DIN (R112). -/
def dinGroups (n : Nat) (din : Word) : Groups := regroup8to6 (lane din 0) (lane din 1) (lane din 2) n

theorem lane_encodedWord (nopad : Bool) (n : Nat) (din : Word) {i : Nat} (hi : i < 4) :
    lane (encodedWord nopad n din) i = encodedLane nopad n i ((dinGroups n din).get i) := by
  interval_cases i
  · exact lane_ofLanes_0 _ _ _ _
  · exact lane_ofLanes_1 _ _ _ _
  · exact lane_ofLanes_2 _ _ _ _
  · exact lane_ofLanes_3 _ _ _ _

/-- The payload lanes of ENCQ's result hold the symbols of the groups (R112). -/
theorem lane_encodedWord_payload (nopad : Bool) {n : Nat} (hn : n ≤ 3) (din : Word) {i : Nat}
    (hi : i < payloadGroups n) : lane (encodedWord nopad n din) i = symbolOf ((dinGroups n din).get i) := by
  rw [lane_encodedWord _ _ _ (lt_of_lt_of_le hi (payloadGroups_le_four hn)), encodedLane, if_pos hi]

/-- A quantum's pad count, seen from either side (R92, R99, R106, R107). -/
theorem payloadSymbols_encodePadCount {n : Nat} (hn1 : 1 ≤ n) (hn3 : n ≤ 3) :
    payloadSymbols (encodePadCount n) = payloadGroups n := by
  unfold payloadSymbols encodePadCount payloadGroups
  omega

theorem decodedBytes_encodePadCount {n : Nat} (hn1 : 1 ≤ n) (hn3 : n ≤ 3) :
    decodedBytes (encodePadCount n) = n := by
  unfold decodedBytes encodePadCount
  omega

/-- The scan finds the pads that ENCQ wrote (R99, R103). -/
theorem trailingPads_encodedWord {n : Nat} (hn1 : 1 ≤ n) (hn3 : n ≤ 3) (din : Word) :
    trailingPads (encodedWord false n din) = encodePadCount n := by
  have hr : payloadGroups n = 4 - encodePadCount n := (payloadSymbols_encodePadCount hn1 hn3).symm
  have hp : encodePadCount n ≤ 2 := encodePadCount_le_two n
  refine (trailingPads_eq_iff (by omega)).mpr ⟨fun i hi hip => ?_, ?_⟩
  · rw [lane_encodedWord _ _ _ hi, encodedLane, if_neg (by omega), if_pos ⟨by omega, rfl⟩]
  · rw [lane_encodedWord_payload _ hn3 _ (by omega)]
    exact symbolOf_ne_pad _

/-- DECQ finds the pad count of a quantum that ENCQ encoded: scanned, or given as PADCNT (R103, R105). -/
theorem decodePadCount_encodedWord (nopad : Bool) {n : Nat} (hn1 : 1 ≤ n) (hn3 : n ≤ 3) (din : Word) :
    decodePadCount nopad (if nopad = true then BitVec.ofNat 2 (encodePadCount n) else 0#2)
      (encodedWord nopad n din) = encodePadCount n := by
  cases nopad with
  | false => exact trailingPads_encodedWord hn1 hn3 din
  | true =>
    have hp : encodePadCount n ≤ 2 := encodePadCount_le_two n
    exact Nat.mod_eq_of_lt (by omega)

theorem payloadValid_encodedWord (nopad : Bool) {n : Nat} (hn : n ≤ 3) (din : Word) :
    payloadValid (payloadGroups n) (encodedWord nopad n din) = true := by
  refine payloadValid_iff.mpr fun i hi => ?_
  rw [lane_encodedWord_payload _ hn _ hi]
  exact (lutsAreInverseOnTheAlphabet.1 _).2

/-- The groups past the payload are 0. -/
theorem dinGroups_get_of_le {n : Nat} (hn1 : 1 ≤ n) (din : Word) {i : Nat} (hi : payloadGroups n ≤ i) :
    (dinGroups n din).get i = 0#6 := by
  have hr : 2 ≤ payloadGroups n := by
    unfold payloadGroups
    omega
  obtain rfl | rfl | h : i = 2 ∨ i = 3 ∨ 4 ≤ i := by omega
  · exact regroup8to6_g2_eq_zero _ _ _ hi
  · exact regroup8to6_g3_eq_zero _ _ _ hi
  · exact List.getD_eq_default _ _ h

/-- DECQ looks up the groups that ENCQ encoded (R81, R93). -/
theorem decodedGroup_encodedWord (nopad : Bool) {n : Nat} (hn1 : 1 ≤ n) (hn3 : n ≤ 3) (din : Word) (i : Nat) :
    decodedGroup (payloadGroups n) i (encodedWord nopad n din) = (dinGroups n din).get i := by
  unfold decodedGroup
  split
  next hi =>
    rw [lane_encodedWord_payload _ hn3 _ hi]
    exact (lutsAreInverseOnTheAlphabet.1 _).1
  next hi => exact (dinGroups_get_of_le hn1 din (by omega)).symm

theorem decodedGroups_encodedWord (nopad : Bool) {n : Nat} (hn1 : 1 ≤ n) (hn3 : n ≤ 3) (din : Word) :
    decodedGroups (payloadGroups n) (encodedWord nopad n din) = dinGroups n din := by
  simp only [decodedGroups, decodedGroup_encodedWord nopad hn1 hn3]
  rfl

/-- A quantum that ENCQ encoded decodes to its bytes, each in its lane (R96). -/
theorem lane_decodedWord_encodedWord (nopad : Bool) {n : Nat} (hn1 : 1 ≤ n) (hn3 : n ≤ 3) (din : Word) {j : Nat}
    (hj : j < 4) : lane (decodedWord (encodePadCount n) (encodedWord nopad n din)) j =
      if j < n then lane din j else 0x00#8 := by
  rw [decodedWord_eq, payloadSymbols_encodePadCount hn1 hn3, decodedBytes_encodePadCount hn1 hn3,
    decodedGroups_encodedWord nopad hn1 hn3, dinGroups, regroup6to8_regroup8to6]
  interval_cases j
  · exact lane_ofLanes_0 _ _ _ _
  · exact lane_ofLanes_1 _ _ _ _
  · exact lane_ofLanes_2 _ _ _ _
  · exact (lane_ofLanes_3 _ _ _ _).trans (if_neg (by omega)).symm

/-- DECQ decodes a quantum that ENCQ encoded in the same mode, its pad count given as PADCNT when NOPAD = 1 (R114). -/
theorem exec_decq_encodedWord {s : State} {din : Word} {n : Nat} (hn1 : 1 ≤ n) (hn3 : n ≤ 3)
    (hopen : s.status.final = false) (hdin : s.din = encodedWord s.nopad n din) :
    exec (.decq (if s.nopad = true then BitVec.ofNat 2 (encodePadCount n) else 0#2)) s =
      .next (decodeQuantum (encodePadCount n) s) := by
  refine exec_decq_of_valid ?field hopen ?pads (encodePadCount_le_two n) (.inr ?valid)
  case field => cases s.nopad <;> simp
  case pads =>
    rw [hdin]
    exact decodePadCount_encodedWord s.nopad hn1 hn3 din
  case valid =>
    rw [hdin, payloadSymbols_encodePadCount hn1 hn3]
    exact payloadValid_encodedWord s.nopad hn3 din

/-- Settles O19: ENCQ and END leave an open stream with empty counters, and DECQ decodes the result. -/
theorem encodedQuantumDecodesBack : Obligations.EncodedQuantumDecodesBack := by
  intro s n hn hopen
  have hn1 : 1 ≤ n.toNat := by bv_omega
  have hn3 : n.toNat ≤ 3 := by omega
  have hencq : exec (.encq n) s = .next (encodeQuantum n.toNat s) := if_neg (by simp [hopen])
  have hbytes : decodedBytes (encodePadCount n.toNat) = n.toNat := decodedBytes_encodePadCount hn1 hn3
  refine ⟨_, _, _, hencq, rfl, exec_decq_encodedWord hn1 hn3 rfl rfl, ⟨rfl, rfl, rfl⟩, ?nout, ?bytecnt,
    fun j hj => lane_decodedWord_encodedWord s.nopad hn1 hn3 s.din hj⟩
  case nout => simp [hbytes]
  case bytecnt => simp [hbytes]

end Sys2Proof.Machine

namespace Sys2Proof.Machine

/-! ## O16: the scan for trailing pads (spec/42_padding.md) -/

@[simp] theorem leadingPads_nil : leadingPads [] = 0 := rfl

/-- The scan counts a pad byte and goes on (R103). -/
theorem leadingPads_cons_of_pad {b : Byte} (hb : b = Config.padSymbol) (rest : List Byte) :
    leadingPads (b :: rest) = leadingPads rest + 1 := if_pos hb

/-- The scan stops at a byte other than the pad byte (R103). -/
theorem leadingPads_cons_of_ne {b : Byte} (hb : b ≠ Config.padSymbol) (rest : List Byte) :
    leadingPads (b :: rest) = 0 := if_neg hb

/-- The scan goes through the lanes from the last to the first (R47, R103). -/
theorem trailingPads_ofLanes (s0 s1 s2 s3 : Byte) :
    trailingPads (ofLanes s0 s1 s2 s3) = leadingPads [s3, s2, s1, s0] := by
  simp only [trailingPads, lane_ofLanes_0, lane_ofLanes_1, lane_ofLanes_2, lane_ofLanes_3]

/-- Settles O16: the scan takes one lane after the other. -/
theorem trailingPadsScanFromTheEnd : Obligations.TrailingPadsScanFromTheEnd := by
  refine ⟨fun _ _ => rfl, fun s0 s1 s2 s3 => ?_⟩
  have hscan : trailingPads (s0 ++ s1 ++ s2 ++ s3) = leadingPads [s3, s2, s1, s0] := trailingPads_ofLanes s0 s1 s2 s3
  rw [hscan]
  refine ⟨fun h3 => ?_, fun h3 h2 => ?_, fun h3 h2 h1 => ?_, fun h3 h2 h1 h0 => ?_, fun h3 h2 h1 h0 => ?_⟩
  · rw [leadingPads_cons_of_ne h3]
  · rw [leadingPads_cons_of_pad h3, leadingPads_cons_of_ne h2]
  · rw [leadingPads_cons_of_pad h3, leadingPads_cons_of_pad h2, leadingPads_cons_of_ne h1]
  · rw [leadingPads_cons_of_pad h3, leadingPads_cons_of_pad h2, leadingPads_cons_of_pad h1, leadingPads_cons_of_ne h0]
  · rw [leadingPads_cons_of_pad h3, leadingPads_cons_of_pad h2, leadingPads_cons_of_pad h1, leadingPads_cons_of_pad h0,
      leadingPads_nil]

/-! ## O20: the decoded length from the symbol count -/

/-- A counter that does not wrap adds as a number (R40, R41). -/
theorem toNat_add_ofNat_of_lt {c : Word} {k : Nat} (h : c.toNat + k < 2 ^ 32) :
    (c + BitVec.ofNat 32 k).toNat = c.toNat + k := by
  rw [BitVec.toNat_add, BitVec.toNat_ofNat, Nat.add_mod_mod, Nat.mod_eq_of_lt h]

/-- A padded decode quantum counts all four lanes, its pads among them (R41). -/
theorem decodeQuantum_symcnt_toNat {s : State} (p : Nat) (hnopad : s.nopad = false)
    (hwrap : s.symcnt.toNat + 4 < 2 ^ 32) : (decodeQuantum p s).symcnt.toNat = s.symcnt.toNat + 4 := by
  rw [decodeQuantum_symcnt, hnopad]
  exact toNat_add_ofNat_of_lt hwrap

/-- A decode quantum counts `3 - p` bytes (R40, R107). -/
theorem decodeQuantum_bytecnt_toNat {s : State} (p : Nat) (hwrap : s.bytecnt.toNat + 3 < 2 ^ 32) :
    (decodeQuantum p s).bytecnt.toNat = s.bytecnt.toNat + (3 - p) := by
  rw [decodeQuantum_bytecnt]
  exact toNat_add_ofNat_of_lt (show s.bytecnt.toNat + (3 - p) < 2 ^ 32 by omega)

/-- PADCNT holds a pad count that DECQ accepts (R33). -/
theorem decodeQuantum_padcnt_toNat (s : State) {p : Nat} (hp : p ≤ 2) :
    (decodeQuantum p s).status.padcnt.toNat = p := Nat.mod_eq_of_lt (by omega)

/-- Settles O20: the quantum adds one to the full quanta, and its bytes fall short of three by PADCNT. -/
theorem decodedLengthFollowsTheSymbolCount : Obligations.DecodedLengthFollowsTheSymbolCount := by
  intro s t hnopad hquanta hbytes hwrap hx hnout
  rcases execDecq_cases hx with ⟨code, -, rfl⟩ | ⟨hok, rfl⟩
  · exact absurd rfl hnout
  · obtain ⟨-, -, hp, -⟩ := decqError_eq_none.mp hok
    rw [decodeQuantum_symcnt_toNat _ hnopad hwrap, decodeQuantum_bytecnt_toNat _ (by omega),
      decodeQuantum_padcnt_toNat s hp, hbytes]
    generalize decodePadCount s.nopad 0#2 s.din = p at hp
    exact ⟨by omega, by omega⟩

end Sys2Proof.Machine

namespace Sys2Proof.Machine

open Sys2Proof

/-! ## ENCQ and DECQ (spec/43_codec_commands.md): their words, and what each of their outcomes is -/

/-- ENCQ's word, from its opcode and its field (R63, R112). -/
theorem encode_encq : ∀ n : BitVec 2, 0x00000001#32 + 16#32 * n.setWidth 32 = encode (.encq n) := by decide

/-- DECQ's word, from its opcode and its field (R63, R114). -/
theorem encode_decq : ∀ pc : BitVec 2, 0x00000002#32 + 16#32 * pc.setWidth 32 = encode (.decq pc) := by decide

theorem exec_encq_of_final {s : State} (n : BitVec 2) (hfinal : s.status.final = true) :
    exec (.encq n) s = .next (raiseError .length s) := if_pos hfinal

theorem exec_encq_of_open {s : State} (n : BitVec 2) (hopen : s.status.final = false) :
    exec (.encq n) s = .next (encodeQuantum n.toNat s) := if_neg (by simp [hopen])

/-- In an open stream the quantum decides FINAL (R108). -/
theorem markFinal_writeResult_of_open {s : State} (hopen : s.status.final = false) (d : Word) (nout padcnt : Nat)
    (b : Bool) : markFinal b (writeResult d nout padcnt s) = { s with
      dout := d
      status := { s.status with nout := BitVec.ofNat 3 nout, padcnt := BitVec.ofNat 2 padcnt, final := b } } := by
  simp [markFinal, Status.markFinal, hopen, writeResult, Status.withResult]

/-! ## O14: ENCQ -/

/-- The symbol count with the padded mode first, as R112 writes it. -/
theorem encodedSymbols_eq (nopad : Bool) (n : Nat) : encodedSymbols nopad n =
    if nopad = false then payloadGroups n + encodePadCount n else payloadGroups n := by
  cases nopad <;> rfl

/-- Settles O14: after a partial quantum ENCQ raises the error, and in an open stream it encodes. -/
theorem encqEncodesTheQuantum : Obligations.EncqEncodesTheQuantum := by
  refine ⟨fun nopad n => ?_, fun s n => ⟨exec_encq_of_final n, fun hopen => ?_⟩⟩
  · rw [encode_encq]
    exact decodeOfEncodeIsTheCommand nopad (.encq n) rfl
  · rw [exec_encq_of_open n hopen, encodeQuantum, encodedSymbols_eq, markFinal_writeResult_of_open hopen]
    rfl

/-! ## O15: the result of ENCQ row by row -/

/-- What ENCQ writes in a pad position (R100, R101). -/
def padLane (nopad : Bool) : Byte := if nopad = true then 0x00#8 else Config.padSymbol

theorem encodedWord_one (nopad : Bool) (din : Word) : encodedWord nopad 1 din =
    ofLanes (symbolOf ((lane din 0).extractLsb' 2 6)) (symbolOf ((lane din 0).extractLsb' 0 2 ++ 0#4))
      (padLane nopad) (padLane nopad) := by
  rw [encodedWord, regroup8to6_one]
  cases nopad <;> rfl

theorem encodedWord_two (nopad : Bool) (din : Word) : encodedWord nopad 2 din =
    ofLanes (symbolOf ((lane din 0).extractLsb' 2 6))
      (symbolOf ((lane din 0).extractLsb' 0 2 ++ (lane din 1).extractLsb' 4 4))
      (symbolOf ((lane din 1).extractLsb' 0 4 ++ 0#2)) (padLane nopad) := by
  rw [encodedWord, regroup8to6_two]
  cases nopad <;> rfl

theorem encodedWord_three (nopad : Bool) (din : Word) : encodedWord nopad 3 din =
    ofLanes (symbolOf ((lane din 0).extractLsb' 2 6))
      (symbolOf ((lane din 0).extractLsb' 0 2 ++ (lane din 1).extractLsb' 4 4))
      (symbolOf ((lane din 1).extractLsb' 0 4 ++ (lane din 2).extractLsb' 6 2))
      (symbolOf ((lane din 2).extractLsb' 0 6)) := by
  rw [encodedWord, regroup8to6_eq]
  rfl

/-- A row of R113: ENCQ's result in an open stream, from the word that it writes. -/
theorem exec_encq_row {s : State} {n : BitVec 2} {nopad : Bool} {o0 o1 o2 o3 : Byte}
    (hopen : s.status.final = false) (hnopad : s.nopad = nopad)
    (hword : encodedWord nopad n.toNat s.din = ofLanes o0 o1 o2 o3) :
    ∃ t, exec (.encq n) s = .next t ∧ lane t.dout 0 = o0 ∧ lane t.dout 1 = o1 ∧ lane t.dout 2 = o2 ∧
      lane t.dout 3 = o3 ∧ t.status.nout = BitVec.ofNat 3 (encodedSymbols nopad n.toNat) ∧
      t.status.padcnt = BitVec.ofNat 2 (encodePadCount n.toNat) ∧
      t.status.final = decide (n.toNat = 1 ∨ n.toNat = 2) := by
  refine ⟨_, exec_encq_of_open n hopen, ?_⟩
  simp [hnopad, hword, hopen]

/-- Settles O15: the word of each row, NOPAD deciding the pad positions and NOUT. -/
theorem encqResultsRowByRow : Obligations.EncqResultsRowByRow := by
  intro s hopen
  refine ⟨?zero, fun hnopad => ⟨?one, ?two⟩, fun hnopad => ⟨?oneNopad, ?twoNopad⟩, ?three⟩
  case zero => cases hnopad : s.nopad <;> exact exec_encq_row (n := 0#2) hopen hnopad (encodedWord_zero _ _)
  case one => exact exec_encq_row (n := 1#2) hopen hnopad (encodedWord_one _ _)
  case two => exact exec_encq_row (n := 2#2) hopen hnopad (encodedWord_two _ _)
  case oneNopad => exact exec_encq_row (n := 1#2) hopen hnopad (encodedWord_one _ _)
  case twoNopad => exact exec_encq_row (n := 2#2) hopen hnopad (encodedWord_two _ _)
  case three => cases hnopad : s.nopad <;> exact exec_encq_row (n := 3#2) hopen hnopad (encodedWord_three _ _)

/-! ## O17: DECQ -/

theorem exec_decq_of_error {s : State} {pc : BitVec 2} {code : ErrCode} (herr : decqError pc s = some code) :
    exec (.decq pc) s = .next (raiseError code s) := by
  simp only [exec, execDecq, herr]

theorem decqError_of_field {s : State} {pc : BitVec 2} (hfield : s.nopad = false ∧ pc ≠ 0#2) :
    decqError pc s = some .illegalCmd := if_pos hfield

/-- The checks of a DECQ whose field is allowed, in the order of R134. -/
theorem decqError_of_legal_field {s : State} {pc : BitVec 2} {p : Nat} (hfield : s.nopad = true ∨ pc = 0#2)
    (hpads : decodePadCount s.nopad pc s.din = p) : decqError pc s =
      if s.status.final = true then some .length
      else if 3 ≤ p then some .padRange
      else if s.fast = false ∧ payloadValid (payloadSymbols p) s.din = false then some .invalidSymbol
      else none := by
  subst hpads
  exact if_neg (by simpa [or_iff_not_imp_left] using hfield)

theorem payloadValid_eq_false_iff {r : Nat} {din : Word} :
    payloadValid r din = false ↔ ∃ i, i < r ∧ isValidSymbol (lane din i) = false := by
  simp [payloadValid]

/-- The pad count with the padded mode first, as R114 writes it. -/
theorem decodePadCount_eq (nopad : Bool) (pc : BitVec 2) (din : Word) : decodePadCount nopad pc din =
    if nopad = false then trailingPads din else pc.toNat := by
  cases nopad <;> rfl

/-- The symbol count with the padded mode first, as R114 writes it. -/
theorem consumedSymbols_eq (nopad : Bool) (p : Nat) : consumedSymbols nopad p =
    if nopad = false then 4 else payloadSymbols p := by
  cases nopad <;> rfl

/-- Settles O17: the words by what decoding takes as illegal, the outcomes by the checks of R134 in their order. -/
theorem decqDecodesTheQuantum : Obligations.DecqDecodesTheQuantum := by
  refine ⟨fun pc => ?_, decodeOfEncodeIsTheCommand false (.decq 0#2) rfl, ?_, fun s pc => ?_⟩
  · rw [encode_decq]
    exact decodeOfEncodeIsTheCommand true (.decq pc) rfl
  · exact fun pc hpc => decode_of_isIllegalWord (by revert pc; decide)
  rw [← decodePadCount_eq]
  generalize hpads : decodePadCount s.nopad pc s.din = p
  refine ⟨fun hfield => exec_decq_of_error (decqError_of_field hfield), fun hfield => ?_⟩
  have herror := decqError_of_legal_field hfield hpads
  refine ⟨fun hfinal => ?length, fun hopen hp => ?padRange, fun hopen hp hinvalid => ?invalidSymbol,
    fun hopen hp hvalid => ?decodes⟩
  case length => exact exec_decq_of_error (herror.trans (if_pos hfinal))
  case padRange => exact exec_decq_of_error (by simp [herror, hopen, hp])
  case invalidSymbol =>
    have hpayload : payloadValid (payloadSymbols p) s.din = false := payloadValid_eq_false_iff.mpr hinvalid.2
    exact exec_decq_of_error (by simp [herror, hopen, not_le.mpr hp, hinvalid.1, hpayload])
  case decodes =>
    have hok : s.fast = true ∨ payloadValid (payloadSymbols p) s.din = true := by
      rw [← payloadValid_eq_false_iff] at hvalid
      exact (not_and_or.mp hvalid).imp eq_true_of_ne_false eq_true_of_ne_false
    rw [exec_decq_of_valid hfield hopen hpads (by omega) hok, decodeQuantum, consumedSymbols_eq,
      markFinal_writeResult_of_open hopen]
    rfl

end Sys2Proof.Machine

namespace Sys2Proof.Machine

open Sys2Proof

/-! ## Whole texts (R116, R117): the lanes of a word and the quanta of a text -/

/-- The lanes of a word in stream order (R47). -/
def lanes (w : Word) : List Byte := [lane w 0, lane w 1, lane w 2, lane w 3]

@[simp] theorem length_lanes (w : Word) : (lanes w).length = 4 := rfl

@[simp] theorem lanes_ofLanes (a b c d : Byte) : lanes (ofLanes a b c d) = [a, b, c, d] := by simp [lanes]

theorem take_lanes_congr {d e : Word} {k : Nat} (hlanes : ∀ j < k, j < 4 → lane d j = lane e j) :
    (lanes d).take k = (lanes e).take k := by
  apply List.ext_getElem (by simp [lanes])
  intro j hj _
  obtain ⟨hk, h4⟩ : j < k ∧ j < 4 := by simpa [lanes] using hj
  have hlane := hlanes j hk h4
  interval_cases j <;> simpa [lanes] using hlane

/-- The host takes as many lanes as NOUT says (R34). -/
theorem validLanes_of_nout {st : Status} {k : Nat} (hnout : st.nout = BitVec.ofNat 3 k) (hk : k ≤ 4) (dout : Word) :
    validLanes st.word dout = (lanes dout).take k := by
  obtain ⟨-, -, -, -, hfield, -⟩ := statusFieldsStandAtTheirBits st
  have htoNat : (BitVec.ofNat 3 k).toNat = k := Nat.mod_eq_of_lt (by omega)
  rw [validLanes, hfield, hnout, htoNat]
  rfl

/-- A quantum of `n` bytes may stand before `rest`: only the last quantum of a text is a partial one (R116). -/
def QuantumBefore (n : Nat) (rest : List Byte) : Prop := n = 3 ∨ (n = 1 ∨ n = 2) ∧ rest = []

theorem QuantumBefore.bounds {n : Nat} {rest : List Byte} (h : QuantumBefore n rest) : 1 ≤ n ∧ n ≤ 3 := by
  rcases h with rfl | ⟨rfl | rfl, -⟩ <;> decide

theorem QuantumBefore.append_ne_nil {n : Nat} {rest : List Byte} (h : QuantumBefore n rest) (din : Word) :
    (lanes din).take n ++ rest ≠ [] := by
  rcases h with rfl | ⟨rfl | rfl, -⟩ <;> exact List.cons_ne_nil _ _

/-- Only the last quantum of a text ends its stream (R108). -/
theorem QuantumBefore.nil_or_open {n : Nat} {rest : List Byte} (h : QuantumBefore n rest) :
    rest = [] ∨ decide (n = 1 ∨ n = 2) = false := by
  rcases h with rfl | ⟨-, hrest⟩
  · exact .inr rfl
  · exact .inl hrest

/-- Induction over the quanta of a byte sequence, each given as the first `n` lanes of a word. -/
theorem quanta_induction {P : List Byte → Prop} (nil : P [])
    (quantum : ∀ din n rest, QuantumBefore n rest → P rest → P ((lanes din).take n ++ rest)) (xs : List Byte) :
    P xs := by
  induction xs using quantaPayload.induct with
  | case1 b0 b1 b2 rest ih => simpa using quantum (ofLanes b0 b1 b2 0#8) 3 rest (.inl rfl) ih
  | case2 b0 b1 => simpa using quantum (ofLanes b0 b1 0#8 0#8) 2 [] (.inr ⟨.inr rfl, rfl⟩) nil
  | case3 b0 => simpa using quantum (ofLanes b0 0#8 0#8 0#8) 1 [] (.inr ⟨.inl rfl, rfl⟩) nil
  | case4 => exact nil

/-- The symbols of a quantum, with its pads when they are emitted: the valid lanes that ENCQ leaves (R112). -/
def encodedQuantum (nopad : Bool) (n : Nat) (din : Word) : List Byte :=
  (lanes (encodedWord nopad n din)).take (encodedSymbols nopad n)

/-- The text of a byte sequence: the symbols of its groups, then the pads (R90, R102). -/
def encodedText (nopad : Bool) (xs : List Byte) : List Byte :=
  (bytesToGroups xs).map symbolOf ++
    (if nopad = true then [] else List.replicate ((3 - xs.length % 3) % 3) Config.padSymbol)

theorem encodedQuantum_congr {nopad : Bool} {n : Nat} {d e : Word} (hlanes : ∀ j < n, lane d j = lane e j) :
    encodedQuantum nopad n d = encodedQuantum nopad n e := by
  simp only [encodedQuantum, encodedWord_congr hlanes]

theorem length_encodedQuantum (nopad : Bool) (n : BitVec 2) (din : Word) :
    (encodedQuantum nopad n.toNat din).length = encodedSymbols nopad n.toNat :=
  List.length_take_of_le (encodedSymbols_le_four nopad n)

/-- A quantum's symbols are those of its payload groups, then its pads (R100, R101). -/
theorem encodedQuantum_eq (nopad : Bool) {n : Nat} (hn : n ≤ 3) (din : Word) : encodedQuantum nopad n din =
    (quantumPayload (lane din 0) (lane din 1) (lane din 2) n).map symbolOf ++
      (if nopad = true then [] else List.replicate (encodePadCount n) Config.padSymbol) := by
  rw [encodedQuantum, encodedWord, lanes_ofLanes]
  cases nopad <;> interval_cases n <;> rfl

theorem quantumPayload_congr {b0 b1 b2 c0 c1 c2 : Byte} {n : Nat} (h0 : 0 < n → b0 = c0) (h1 : 1 < n → b1 = c1)
    (h2 : 2 < n → b2 = c2) : quantumPayload b0 b1 b2 n = quantumPayload c0 c1 c2 n := by
  simp only [quantumPayload, regroup8to6_congr h0 h1 h2]

/-- The payload of a quantum given as lanes, then that of the rest: the lanes past its bytes do not matter. -/
theorem quantaPayload_append {n : Nat} {rest : List Byte} (hq : QuantumBefore n rest) (din : Word) :
    quantaPayload ((lanes din).take n ++ rest) =
      quantumPayload (lane din 0) (lane din 1) (lane din 2) n ++ quantaPayload rest := by
  rcases hq with rfl | ⟨rfl | rfl, rfl⟩
  · rfl
  · rw [quantumPayload_congr (c1 := 0#8) (c2 := 0#8) (fun _ => rfl) (by simp) (by simp)]
    exact (List.append_nil _).symm
  · rw [quantumPayload_congr (c2 := 0#8) (fun _ => rfl) (fun _ => rfl) (by simp)]
    exact (List.append_nil _).symm

@[simp] theorem encodedText_nil (nopad : Bool) : encodedText nopad [] = [] := by
  simp [encodedText, bytesToGroups, payloadGroups, sliceGroups]

/-- The text of a quantum given as lanes, then that of the rest. -/
theorem encodedText_append (nopad : Bool) {n : Nat} {rest : List Byte} (hq : QuantumBefore n rest) (din : Word) :
    encodedText nopad ((lanes din).take n ++ rest) = encodedQuantum nopad n din ++ encodedText nopad rest := by
  rw [encodedText, encodedText, ← quantaPayload_eq_bytesToGroups, ← quantaPayload_eq_bytesToGroups,
    quantaPayload_append hq, encodedQuantum_eq _ hq.bounds.2]
  rcases hq with rfl | ⟨rfl | rfl, rfl⟩
  · simp [encodePadCount]
  · simp [encodePadCount, lanes, quantaPayload]
  · simp [encodePadCount, lanes, quantaPayload]

/-- A padded text is made of whole quanta of symbols (R102). -/
theorem length_encodedText_padded (xs : List Byte) : (encodedText false xs).length % 4 = 0 := by
  have hgroups : (bytesToGroups xs).length = (8 * xs.length + 5) / 6 := length_sliceGroups _ _
  simp only [encodedText, List.length_append, List.length_map, hgroups, Bool.false_eq_true, if_false,
    List.length_replicate]
  obtain h | h | h : xs.length % 3 = 0 ∨ xs.length % 3 = 1 ∨ xs.length % 3 = 2 := by omega
  all_goals omega

/-! ## The state along a loop -/

/-- A host's quantum went well: `t` is ready for the next access, with the options and the error record of `s`. -/
structure Undisturbed (s t : State) : Prop where
  ready : Ready t
  ctrl : t.ctrl = s.ctrl
  record : RecordsNoError s t

theorem Undisturbed.refl {s : State} (hs : Ready s) : Undisturbed s s := ⟨hs, rfl, rfl, rfl, rfl⟩

theorem Undisturbed.trans {s t u : State} (h : Undisturbed s t) (h' : Undisturbed t u) : Undisturbed s u := by
  obtain ⟨-, hctrl, herr, hecode, heovf⟩ := h
  obtain ⟨hu, hctrl', herr', hecode', heovf'⟩ := h'
  exact ⟨hu, hctrl'.trans hctrl, herr'.trans herr, hecode'.trans hecode, heovf'.trans heovf⟩

theorem Undisturbed.nopad {s t : State} (h : Undisturbed s t) : t.nopad = s.nopad :=
  congrArg (·.getLsbD 1) h.ctrl

theorem Undisturbed.err {s t : State} (h : Undisturbed s t) : t.status.err = s.status.err := h.record.1

/-- The host sees no error in STATUS (R117). -/
theorem Undisturbed.not_errBit {s t : State} (h : Undisturbed s t) (herr : s.status.err = false) :
    ¬ t.status.word.getLsbD 0 = true := by
  obtain ⟨hbit, -⟩ := statusFieldsStandAtTheirBits t.status
  rw [hbit, h.err, herr]
  exact Bool.false_ne_true

theorem Undisturbed.after_read {s t : State} (h : Undisturbed s t) (v : Word) :
    Undisturbed s (returnToHost v t) := ⟨h.ready, h.ctrl, h.record⟩

theorem Status.reservedValue_eq_false_iff (st : Status) :
    st.reservedValue = false ↔ st.ecode.toNat < 5 ∧ st.padcnt.toNat ≠ 3 ∧ st.nout.toNat < 5 := by
  simp [Status.reservedValue, and_assoc]

/-- A result within its ranges leaves the state ready, whatever DIN was loaded with. -/
theorem undisturbed_writeResult {s : State} (d e : Word) {n p : Nat} (hs : Ready s) (hn : n ≤ 4) (hp : p ≤ 2) :
    Undisturbed s (writeResult d n p { s with din := e }) := by
  obtain ⟨hseen, hreserved⟩ := hs
  obtain ⟨hecode, -, -⟩ := s.status.reservedValue_eq_false_iff.mp hreserved
  have hpadcnt : (BitVec.ofNat 2 p).toNat = p := Nat.mod_eq_of_lt (by omega)
  have hnout : (BitVec.ofNat 3 n).toNat = n := Nat.mod_eq_of_lt (by omega)
  refine ⟨⟨hseen, (Status.reservedValue_eq_false_iff _).mpr ⟨hecode, ?_, ?_⟩⟩, rfl, rfl, rfl, rfl⟩
  · exact hpadcnt.trans_ne (by omega)
  · exact hnout.trans_lt (by omega)

theorem undisturbed_encodeQuantum {s : State} (d : Word) (n : BitVec 2) (hs : Ready s) :
    Undisturbed s (encodeQuantum n.toNat { s with din := d }) := by
  obtain ⟨hready, hctrl, hrecord⟩ :=
    undisturbed_writeResult (encodedWord s.nopad n.toNat d) d hs (encodedSymbols_le_four s.nopad n)
      (encodePadCount_le_two n.toNat)
  exact ⟨hready, hctrl, hrecord⟩

theorem undisturbed_decodeQuantum {s : State} (d : Word) {p : Nat} (hs : Ready s) (hp : p ≤ 2) :
    Undisturbed s (decodeQuantum p { s with din := d }) := by
  obtain ⟨hready, hctrl, hrecord⟩ :=
    undisturbed_writeResult (decodedWord p d) d hs (decodedBytes_le_four p) hp
  exact ⟨hready, hctrl, hrecord⟩

/-! ## O46: the encode loop -/

/-- `t` continues the stream of `s` by `bytes` bytes and `symbols` symbols (R40, R41). -/
structure StreamGrows (s t : State) (bytes symbols : Nat) : Prop extends Undisturbed s t where
  bytecnt : t.bytecnt = s.bytecnt + BitVec.ofNat 32 bytes
  symcnt : t.symcnt = s.symcnt + BitVec.ofNat 32 symbols

theorem StreamGrows.refl {s : State} (hs : Ready s) : StreamGrows s s 0 0 :=
  ⟨.refl hs, (BitVec.add_zero _).symm, (BitVec.add_zero _).symm⟩

theorem StreamGrows.trans {s t u : State} {b k b' k' : Nat} (h : StreamGrows s t b k) (h' : StreamGrows t u b' k') :
    StreamGrows s u (b + b') (k + k') := by
  refine ⟨h.toUndisturbed.trans h'.toUndisturbed, ?_, ?_⟩
  · rw [h'.bytecnt, h.bytecnt, BitVec.add_assoc, BitVec.ofNat_add]
  · rw [h'.symcnt, h.symcnt, BitVec.add_assoc, BitVec.ofNat_add]

/-- A quantum of the encode loop in an open stream: its valid lanes, and the state after both reads. -/
theorem encodeOne_of_open {s : State} (d : Word) (n : BitVec 2) (hs : Ready s) (hopen : s.status.final = false) :
    ∃ t, encodeOne d n s = some (encodedQuantum s.nopad n.toNat d, t) ∧
      StreamGrows s t n.toNat (encodedQuantum s.nopad n.toNat d).length ∧
      t.status.final = decide (n.toNat = 1 ∨ n.toNat = 2) := by
  have hd : decode s.nopad (encode (.encq n)) = .encq n := decodeOfEncodeIsTheCommand _ _ rfl
  have hundisturbed := undisturbed_encodeQuantum d n hs
  rw [encodeOne_eq hs hd (exec_encq_of_open (s := { s with din := d }) n hopen) hundisturbed.ready,
    validLanes_of_nout rfl (encodedSymbols_le_four s.nopad n), length_encodedQuantum]
  refine ⟨_, rfl, ⟨(hundisturbed.after_read _).after_read _, rfl, rfl⟩, ?_⟩
  simp [hopen]

/-- The encode loop takes a quantum off the front of its bytes, whatever fills the lanes of missing bytes (R116). -/
theorem hostEncode_append (fill : Byte) {n : Nat} {rest : List Byte} (hq : QuantumBefore n rest) (din : Word)
    (s : State) : ∃ d, (∀ j < n, lane d j = lane din j) ∧ hostEncode fill ((lanes din).take n ++ rest) s =
      (encodeOne d (BitVec.ofNat 2 n) s).bind fun q => (hostEncode fill rest q.2).map fun p => (q.1 ++ p.1, p.2) := by
  rcases hq with rfl | ⟨rfl | rfl, rfl⟩
  · refine ⟨ofLanes (lane din 0) (lane din 1) (lane din 2) fill, fun j hj => by interval_cases j <;> simp, ?_⟩
    simp only [lanes, List.take, List.cons_append, List.nil_append, hostEncode]
    cases encodeOne (ofLanes (lane din 0) (lane din 1) (lane din 2) fill) 3#2 s <;> rfl
  · refine ⟨ofLanes (lane din 0) fill fill fill, by simp, ?_⟩
    simp [lanes, hostEncode]
  · refine ⟨ofLanes (lane din 0) (lane din 1) fill fill, fun j hj => by interval_cases j <;> simp, ?_⟩
    simp [lanes, hostEncode]

/-- The encode loop in an open stream gives the text; with no bytes left the stream may have been ended. -/
theorem hostEncode_of_open (fill : Byte) (xs : List Byte) {s : State} (hs : Ready s)
    (hopen : xs = [] ∨ s.status.final = false) : ∃ t, hostEncode fill xs s = some (encodedText s.nopad xs, t) ∧
      StreamGrows s t xs.length (encodedText s.nopad xs).length := by
  induction xs using quanta_induction generalizing s with
  | nil =>
    rw [encodedText_nil]
    exact ⟨s, rfl, .refl hs⟩
  | quantum din n rest hq ih =>
    have hopen' : s.status.final = false := hopen.resolve_left (hq.append_ne_nil din)
    obtain ⟨hn1, hn3⟩ := hq.bounds
    have hn : (BitVec.ofNat 2 n).toNat = n := Nat.mod_eq_of_lt (by omega)
    obtain ⟨d, hlanes, hloop⟩ := hostEncode_append fill hq din s
    obtain ⟨t, hone, hgrows, hfinal⟩ := encodeOne_of_open d (BitVec.ofNat 2 n) hs hopen'
    rw [hn] at hone hgrows hfinal
    rw [encodedQuantum_congr hlanes] at hone hgrows
    obtain ⟨u, hrest, hgrows'⟩ := ih hgrows.ready (hfinal ▸ hq.nil_or_open)
    rw [hgrows.nopad] at hrest hgrows'
    refine ⟨u, ?_, ?_⟩
    · simp [hloop, hone, hrest, encodedText_append _ hq]
    · have hbytes : ((lanes din).take n).length = n := List.length_take_of_le (by simp; omega)
      rw [encodedText_append _ hq, List.length_append, List.length_append, hbytes]
      exact hgrows.trans hgrows'

/-- Settles O46: the loop's text is the text of the whole sequence, and the counters grow by it. -/
theorem textEncodesAsTheSource : Obligations.TextEncodesAsTheSource := by
  intro fill xs s hs hopen
  obtain ⟨t, hloop, hgrows⟩ := hostEncode_of_open fill xs hs (.inr hopen)
  refine ⟨_, t, hloop, hgrows.record, rfl, fun hnopad => ?_, hgrows.bytecnt, hgrows.symcnt⟩
  rw [hnopad]
  exact length_encodedText_padded xs

/-! ## O47: the decode loop on an encoded text -/

/-- `d` holds what ENCQ wrote of the first `n` lanes of `din`, in the lanes that DECQ reads: the payload's with
NOPAD = 1, all four otherwise. -/
def HoldsEncoded (nopad : Bool) (n : Nat) (din d : Word) : Prop :=
  ∀ j < (if nopad = true then payloadGroups n else 4), lane d j = lane (encodedWord nopad n din) j

/-- The pad count that the host gives DECQ with an encoded quantum of `n` bytes (R117). -/
def hostPadCount (nopad : Bool) (n : Nat) : BitVec 2 :=
  if nopad = true then BitVec.ofNat 2 (encodePadCount n) else 0#2

theorem hostPadCount_allowed (nopad : Bool) (n : Nat) : nopad = true ∨ hostPadCount nopad n = 0#2 := by
  cases nopad
  · exact .inr rfl
  · exact .inl rfl

theorem HoldsEncoded.lane_payload {nopad : Bool} {n : Nat} {din d : Word} (h : HoldsEncoded nopad n din d)
    (hn1 : 1 ≤ n) (hn3 : n ≤ 3) :
    ∀ j < payloadSymbols (encodePadCount n), lane d j = lane (encodedWord nopad n din) j := by
  rw [payloadSymbols_encodePadCount hn1 hn3]
  refine fun j hj => h j (lt_of_lt_of_le hj ?_)
  split
  · exact le_rfl
  · exact payloadGroups_le_four hn3

theorem HoldsEncoded.decodePadCount_eq {nopad : Bool} {n : Nat} {din d : Word} (h : HoldsEncoded nopad n din d)
    (hn1 : 1 ≤ n) (hn3 : n ≤ 3) : decodePadCount nopad (hostPadCount nopad n) d = encodePadCount n := by
  refine Eq.trans ?_ (decodePadCount_encodedWord nopad hn1 hn3 din)
  cases nopad with
  | true => rfl
  | false => exact trailingPads_congr h

theorem HoldsEncoded.payloadValid_eq {nopad : Bool} {n : Nat} {din d : Word} (h : HoldsEncoded nopad n din d)
    (hn1 : 1 ≤ n) (hn3 : n ≤ 3) : payloadValid (payloadSymbols (encodePadCount n)) d = true := by
  rw [payloadValid_congr (h.lane_payload hn1 hn3), payloadSymbols_encodePadCount hn1 hn3]
  exact payloadValid_encodedWord nopad hn3 din

/-- The bytes of a decoded quantum are the bytes that were encoded (R96). -/
theorem HoldsEncoded.lanes_decodedWord {nopad : Bool} {n : Nat} {din d : Word} (h : HoldsEncoded nopad n din d)
    (hn1 : 1 ≤ n) (hn3 : n ≤ 3) : (lanes (decodedWord (encodePadCount n) d)).take n = (lanes din).take n := by
  rw [decodedWord_congr (h.lane_payload hn1 hn3)]
  exact take_lanes_congr fun j hj hj4 => (lane_decodedWord_encodedWord nopad hn1 hn3 din hj4).trans (if_pos hj)

/-- DECQ ends the stream with the quantum that ENCQ ended it with (R108). -/
theorem encodePadCount_pos_iff {n : Nat} (hn1 : 1 ≤ n) (hn3 : n ≤ 3) : 0 < encodePadCount n ↔ n = 1 ∨ n = 2 := by
  unfold encodePadCount
  omega

/-- A quantum of the decode loop in an open stream with no error recorded, on what ENCQ wrote: the bytes that were
encoded are put before those of the rest. -/
theorem decodeOne_of_holdsEncoded {s : State} {din d : Word} {n : Nat} (hd : HoldsEncoded s.nopad n din d)
    (hn1 : 1 ≤ n) (hn3 : n ≤ 3) (hs : Ready s) (hopen : s.status.final = false) (herr : s.status.err = false)
    (next : State → DecodeResult) :
    ∃ t, decodeOne d (hostPadCount s.nopad n) s next = (next t).prepend ((lanes din).take n) ∧ Undisturbed s t ∧
      t.status.final = decide (n = 1 ∨ n = 2) := by
  have hword : decode s.nopad (encode (.decq (hostPadCount s.nopad n))) = .decq (hostPadCount s.nopad n) :=
    decodeOfEncodeIsTheCommand _ _ (by simpa [Instr.wellFormed] using hostPadCount_allowed s.nopad n)
  have hexec := exec_decq_of_valid (s := { s with din := d }) (hostPadCount_allowed s.nopad n) hopen
    (hd.decodePadCount_eq hn1 hn3) (encodePadCount_le_two n) (.inr (hd.payloadValid_eq hn1 hn3))
  have hundisturbed := undisturbed_decodeQuantum d hs (encodePadCount_le_two n)
  have hone := (decodeOne_eq hs hword hexec hundisturbed.ready next).trans (if_neg (hundisturbed.not_errBit herr))
  rw [validLanes_of_nout rfl (decodedBytes_le_four _), decodedBytes_encodePadCount hn1 hn3, decodeQuantum_dout,
    hd.lanes_decodedWord hn1 hn3] at hone
  refine ⟨_, hone, (hundisturbed.after_read _).after_read _, ?_⟩
  simp [hopen, encodePadCount_pos_iff hn1 hn3]

/-- The decode loop takes a quantum off the front of an encoded text, whatever stands in the lanes that are not read
(R117). -/
theorem decodeLoop_append (gap : Byte) (nopad : Bool) {n : Nat} {rest : List Byte} (hq : QuantumBefore n rest)
    (din : Word) (s : State) : ∃ d, HoldsEncoded nopad n din d ∧
      decodeLoop gap (encodedQuantum nopad n din ++ rest) s =
        decodeOne d (hostPadCount nopad n) s (decodeLoop gap rest) := by
  cases nopad with
  | false =>
    have hfull : encodedQuantum false n din = lanes (encodedWord false n din) := by
      rcases hq with rfl | ⟨rfl | rfl, -⟩ <;> rfl
    rw [hfull]
    exact ⟨ofLanes _ _ _ _, fun j (hj : j < 4) => by interval_cases j <;> simp, rfl⟩
  | true =>
    rcases hq with rfl | ⟨rfl | rfl, rfl⟩
    · exact ⟨ofLanes _ _ _ _, fun j (hj : j < 4) => by interval_cases j <;> simp, rfl⟩
    · exact ⟨ofLanes _ _ gap gap, fun j (hj : j < 2) => by interval_cases j <;> simp, rfl⟩
    · exact ⟨ofLanes _ _ _ gap, fun j (hj : j < 3) => by interval_cases j <;> simp, rfl⟩

/-- The decode loop gives back the bytes of an encoded text; with no bytes left the stream may have been ended. -/
theorem decodeLoop_encodedText (gap : Byte) (xs : List Byte) {s : State} (hs : Ready s) (herr : s.status.err = false)
    (hopen : xs = [] ∨ s.status.final = false) :
    ∃ t, decodeLoop gap (encodedText s.nopad xs) s = .done xs t ∧ Undisturbed s t := by
  induction xs using quanta_induction generalizing s with
  | nil =>
    rw [encodedText_nil]
    exact ⟨s, rfl, .refl hs⟩
  | quantum din n rest hq ih =>
    have hopen' : s.status.final = false := hopen.resolve_left (hq.append_ne_nil din)
    obtain ⟨hn1, hn3⟩ := hq.bounds
    have hqText : QuantumBefore n (encodedText s.nopad rest) :=
      hq.imp_right fun ⟨hn, hrest⟩ => ⟨hn, by rw [hrest, encodedText_nil]⟩
    obtain ⟨d, hd, hloop⟩ := decodeLoop_append gap s.nopad hqText din s
    obtain ⟨t, hone, hundisturbed, hfinal⟩ :=
      decodeOne_of_holdsEncoded hd hn1 hn3 hs hopen' herr (decodeLoop gap (encodedText s.nopad rest))
    obtain ⟨u, hrest, hundisturbed'⟩ :=
      ih hundisturbed.ready (hundisturbed.err.trans herr) (hfinal ▸ hq.nil_or_open)
    rw [hundisturbed.nopad] at hrest
    refine ⟨u, ?_, hundisturbed.trans hundisturbed'⟩
    rw [encodedText_append _ hq, hloop, hone, hrest]
    rfl

/-- The host's decode of an encoded text is the loop: a padded text passes the length check (R102, R157). -/
theorem hostDecode_encodedText (gap : Byte) (nopad : Bool) (xs : List Byte) (s : State) :
    (if nopad = true then hostDecodeStripped gap (encodedText nopad xs) s
      else hostDecodePadded (encodedText nopad xs) s) =
      decodeLoop (if nopad = true then gap else 0#8) (encodedText nopad xs) s := by
  cases nopad with
  | true => rfl
  | false => exact if_neg (not_not.mpr (length_encodedText_padded xs))

/-- END after a loop opens the next stream and leaves the options and the error record (R119). -/
theorem issue_endStream {s : State} (hs : Ready s) : issue [command .endStream] s = some (closeStream s) := by
  have hperform : perform (command .endStream) s = .next (closeStream s) := by
    rw [command, wr, perform_access hs, performAccess_write_cmd, executeWord, decodeOfEncodeIsTheCommand _ _ rfl]
    rfl
  simp only [issue, hperform]

theorem undisturbed_closeStream {s : State} (hs : Ready s) : Undisturbed s (closeStream s) := ⟨hs, rfl, rfl, rfl, rfl⟩

/-- Settles O47: the encode loop gives the text, END opens the stream again, and the decode loop gives the text's bytes
back; a padded text passes the host's length check. -/
theorem encodedTextDecodesBack : Obligations.EncodedTextDecodesBack := by
  intro fill gap xs s hs hopen herr
  obtain ⟨t, hencode, hgrows⟩ := hostEncode_of_open fill xs hs (.inr hopen)
  have hended : Undisturbed s (closeStream t) := hgrows.toUndisturbed.trans (undisturbed_closeStream hgrows.ready)
  obtain ⟨v, hdecode, hclean⟩ := decodeLoop_encodedText (if s.nopad = true then gap else 0#8) xs hended.ready
    (hended.err.trans herr) (.inr rfl)
  rw [hended.nopad] at hdecode
  exact ⟨_, t, closeStream t, v, hencode, issue_endStream hgrows.ready, (hostDecode_encodedText _ _ _ _).trans hdecode,
    (hended.trans hclean).record⟩

end Sys2Proof.Machine

namespace Sys2Proof.Machine

open Sys2Proof

/-! ## The control commands (spec/44_control_commands.md) -/

/-- O26 with the defect given as R67's condition on the word. -/
theorem executeWord_of_isIllegalWord {s : State} {w : Word} (hw : isIllegalWord s.nopad w = true) :
    executeWord w s = .next (raiseError .illegalCmd s) :=
  illegalWordRaisesIllegalCmd.1 s w (isIllegalWord_iff.mp hw)

theorem exec_nop (s : State) : exec .nop s = .next s := rfl

theorem exec_endStream (s : State) : exec .endStream s = .next (closeStream s) := rfl

theorem exec_clrerr (s : State) : exec .clrerr s = .next (clearErrorRecord s) := rfl

theorem exec_srst (s : State) : exec .srst s = .next (resetRegisters s) := rfl

/-- The reset value of every register, whatever the host's side of the port holds (R45). -/
theorem readReg_resetRegisters (r : Reg) (s : State) : readReg r (resetRegisters s) = readReg r State.reset := by
  cases r <;> rfl

/-- Settles O21: 0x10 has a field F that NOP does not take, and 0x40 a bit of RSV. -/
theorem nopChangesNothing : Obligations.NopChangesNothing := by
  have hfield : ∀ nopad, isIllegalWord nopad 0x00000010#32 = true := by decide
  have hrsv : ∀ nopad, isIllegalWord nopad 0x00000040#32 = true := by decide
  exact ⟨fun nopad => decodeOfEncodeIsTheCommand nopad .nop rfl, exec_nop, fun s =>
    ⟨executeWord_of_isIllegalWord (hfield s.nopad), executeWord_of_isIllegalWord (hrsv s.nopad)⟩⟩

/-- Settles O22: END is the operation that closes a stream. -/
theorem endClosesTheStream : Obligations.EndClosesTheStream :=
  ⟨fun nopad => decodeOfEncodeIsTheCommand nopad .endStream rfl, exec_endStream⟩

/-- Settles O23: irq falls with ERR (O28), and 0x17 has a field F that CLRERR does not take. -/
theorem clrerrClearsTheErrorRecord : Obligations.ClrerrClearsTheErrorRecord := by
  have hfield : ∀ nopad, isIllegalWord nopad 0x00000017#32 = true := by decide
  refine ⟨fun nopad => decodeOfEncodeIsTheCommand nopad .clrerr rfl, fun s => ?_,
    fun s => executeWord_of_isIllegalWord (hfield s.nopad)⟩
  obtain ⟨-, -, hirq, -⟩ := irqIsErrAndErrie s
  exact ⟨clearErrorRecord s, exec_clrerr s, hirq _ (exec_clrerr s), rfl⟩

/-- Settles O24: SRST writes the reset value to every register, so each reads as after reset. -/
theorem srstResetsEveryRegister : Obligations.SrstResetsEveryRegister :=
  ⟨fun nopad => decodeOfEncodeIsTheCommand nopad .srst rfl, fun s =>
    ⟨resetRegisters s, exec_srst s, rfl, fun r => readReg_resetRegisters r s⟩⟩

end Sys2Proof.Machine

namespace Sys2Proof.Machine

open Sys2Proof

/-! ## Errors (spec/60_exceptions.md) -/

/-! ## O25: what raising an error records -/

theorem Status.recordError_of_clear (code : ErrCode) {st : Status} (hclear : st.err = false) :
    st.recordError code = { st with err := true, ecode := code.bits, nout := 0#3, padcnt := 0#2 } := by
  simp [Status.recordError, Status.withResult, hclear]

theorem Status.recordError_of_recorded (code : ErrCode) {st : Status} (herr : st.err = true) :
    st.recordError code = { st with eovf := true, nout := 0#3, padcnt := 0#2 } := by
  simp [Status.recordError, Status.withResult, herr]

/-- Settles O25: the record by whether one stands already, the code by R125's table. -/
theorem raiseErrorRecordsOnlyTheError : Obligations.RaiseErrorRecordsOnlyTheError := by
  refine fun code s => ⟨fun hclear => ?_, fun herr => ?_⟩
  · rw [raiseError, Status.recordError_of_clear code hclear]
    cases code <;> rfl
  · rw [raiseError, Status.recordError_of_recorded code herr]

/-! ## O48: every command completes -/

/-- Settles O48: no arm of `exec` ends in a fault or a refusal. -/
theorem everyCommandCompletes : Obligations.EveryCommandCompletes := exec_completes

/-! ## O54: what records an error (R124) -/

/-- A step that performs no command leaves STATUS as it was, or at its reset value. -/
theorem step_command_or_status {s t : State} (h : step s = .next t) :
    (∃ w rest, s.pending = wr .cmd w :: rest) ∨ t.status = s.status ∨ t.status = Status.reset := by
  rcases step_cases h with ⟨-, rfl⟩ | ⟨e, rest, hp, hstep⟩
  · exact .inr (.inl rfl)
  · rcases hstep with ⟨lost, -, rfl⟩ | ⟨-, -, ⟨r, -, rfl⟩ | ⟨r, v, -, -, rfl⟩ | ⟨w, rfl, -⟩⟩
    · exact .inr (.inr (hardReset_status _))
    · exact .inr (.inl (returnToHost_status _ _))
    · exact .inr (.inl (writeReg_status _ _ _))
    · exact .inl ⟨w, rest, hp⟩

/-- Settles O54: the STATUS of any other step has no error that was not there before. -/
theorem onlyACommandRecordsAnError : Obligations.OnlyACommandRecordsAnError := by
  intro s t h hnew
  rcases step_command_or_status h with hcommand | hkept | hreset
  · exact hcommand
  · exact absurd hnew (by simp [hkept])
  · exact absurd hnew (by simp [hreset, Status.reset])

/-! ## O27: the order of the errors (R134) -/

/-- A legal word does what the command of R71's case list does. -/
theorem executeWord_of_legal {s : State} {w : Word} {i : Instr} (hw : isIllegalWord s.nopad w = false)
    (hi : decodeOp w = i) : executeWord w s = exec i s := by
  simp [executeWord, decode_eq_ite, hw, hi]

theorem decodeOp_of_encq {w : Word} (hop : (opField w).toNat = 1) : decodeOp w = .encq (fField w) := by
  simp [decodeOp, hop]

theorem decodeOp_of_decq {w : Word} (hop : (opField w).toNat = 2) : decodeOp w = .decq (fField w) := by
  simp [decodeOp, hop]

/-- A legal word that is none of ENCQ, DECQ, CLRERR and SRST is one of the commands that do not touch the record. -/
theorem decodeOp_of_errorless {w : Word} (hlt : (opField w).toNat < 9) (hencq : (opField w).toNat ≠ 1)
    (hdecq : (opField w).toNat ≠ 2) (hclrerr : (opField w).toNat ≠ 7) (hsrst : (opField w).toNat ≠ 8) :
    decodeOp w = .nop ∨ decodeOp w = .endStream ∨ decodeOp w = .symof ∨ decodeOp w = .grpof ∨
      decodeOp w = .valid := by
  unfold decodeOp
  generalize (opField w).toNat = op at *
  interval_cases op <;> simp_all

/-- What R67 asks of a legal word's opcode and, for DECQ, of its pad count. -/
theorem fields_of_legal {nopad : Bool} {w : Word} (hw : isIllegalWord nopad w = false) :
    (opField w).toNat < 9 ∧ ((opField w).toNat = 2 → nopad = true ∨ fField w = 0#2) := by
  rw [← Bool.not_eq_true, isIllegalWord_iff] at hw
  simp only [not_or] at hw
  obtain ⟨hop, -, -, hpad⟩ := hw
  exact ⟨not_le.mp hop, fun hdecq => by simpa [hdecq, or_iff_not_imp_right] using hpad⟩

/-- Settles O27. The errors of a legal word are those of ENCQ (O14) and DECQ (O17), whose outcomes without an error
keep the record as every other command does. -/
theorem errorsAreRaisedInPriorityOrder : Obligations.ErrorsAreRaisedInPriorityOrder := by
  intro s w op pc p invalid
  refine ⟨executeWord_of_isIllegalWord, fun hw => ?_⟩
  obtain ⟨hlt, hfield⟩ := fields_of_legal hw
  have hencq (hop : op = 1) : executeWord w s = exec (.encq pc) s := executeWord_of_legal hw (decodeOp_of_encq hop)
  have hdecq (hop : op = 2) : executeWord w s = exec (.decq pc) s := executeWord_of_legal hw (decodeOp_of_decq hop)
  obtain ⟨hencqLength, hencodes⟩ := encqEncodesTheQuantum.2 s pc
  obtain ⟨-, -, -, hdecqCases⟩ := decqDecodesTheQuantum
  have hdecqOutcomes (hop : op = 2) := (hdecqCases s pc).2 (hfield hop)
  refine ⟨?length, ?padRange, ?invalidSymbol, ?none⟩
  case length =>
    rintro ⟨hop | hop, hfinal⟩
    · exact (hencq hop).trans (hencqLength hfinal)
    · obtain ⟨hlength, -⟩ := hdecqOutcomes hop
      exact (hdecq hop).trans (hlength hfinal)
  case padRange =>
    rintro ⟨hop, hopen, hp⟩
    obtain ⟨-, hpadRange, -⟩ := hdecqOutcomes hop
    exact (hdecq hop).trans (hpadRange hopen hp)
  case invalidSymbol =>
    rintro ⟨hop, hopen, hp, hinvalid⟩
    obtain ⟨-, -, hinvalidSymbol, -⟩ := hdecqOutcomes hop
    exact (hdecq hop).trans (hinvalidSymbol hopen hp hinvalid)
  case none =>
    intro hlength hdecqError hclrerr hsrst
    have hopen (hop : op = 1 ∨ op = 2) : s.status.final = false := by simpa [hop] using hlength
    by_cases hop1 : op = 1
    · exact ⟨_, (hencq hop1).trans (hencodes (hopen (.inl hop1))), rfl, rfl, rfl⟩
    by_cases hop2 : op = 2
    · obtain ⟨-, -, -, hdecodes⟩ := hdecqOutcomes hop2
      obtain ⟨hp, hvalid⟩ := not_or.mp fun herror => hdecqError ⟨hop2, herror⟩
      exact ⟨_, (hdecq hop2).trans (hdecodes (hopen (.inr hop2)) (not_le.mp hp) hvalid), rfl, rfl, rfl⟩
    · obtain ⟨t, ht⟩ := exec_completes (decodeOp w) s
      exact ⟨t, (executeWord_of_legal hw rfl).trans ht,
        exec_recordsNoError ht (decodeOp_of_errorless hlt hop1 hop2 hclrerr hsrst)⟩

end Sys2Proof.Machine

namespace Sys2Proof.Machine

open Sys2Proof

/-! ## Reset and hazards (spec/70_reset_and_hazards.md) -/

/-! ## O45: the clock edges of the register port (R146, R153) -/

/-- An access presented at a clock edge is a word access at the offset that the bus field addr[4:2] names (R146). -/
theorem BusCycle.size_offset_of_access {c : BusCycle} {a : HostAccess} (h : c.event? = some (.access a)) :
    a.size = 4 ∧ a.offset = 4 * c.addr.toNat := by
  obtain ⟨rst, sel, we, addr, wdata⟩ := c
  cases rst with
  | true => cases h
  | false =>
    cases sel with
    | false => cases h
    | true =>
      obtain rfl : (if we then .write (4 * addr.toNat) 4 wdata else .read (4 * addr.toNat) 4) = a := by
        simpa [event?] using h
      cases we <;> exact ⟨rfl, rfl⟩

/-- The access presented at a clock edge is admitted: its offset is the offset of a register (R51, R56). -/
theorem BusCycle.admission_eq_ok {c : BusCycle} {a : HostAccess} (h : c.event? = some (.access a)) :
    ∃ r, admission a.offset a.size = .ok r := by
  obtain ⟨hsize, hoff⟩ := size_offset_of_access h
  have haddr := c.addr.isLt
  obtain ⟨r, hr⟩ : ∃ r : Reg, a.offset = r.offset := exists_eq_offset_iff.mpr (by omega)
  exact ⟨r, by rw [hsize, hr, admission_offset]⟩

/-- Settles O45: a reset is always performed, an access because it is admitted, and every step keeps the state legal
(O59). -/
theorem everyBusCycleIsPerformed : Obligations.EveryBusCycleIsPerformed := by
  intro s c e rest hs hc hp
  have hstep : ∃ t, step s = .next t := by
    cases e with
    | rst lost => exact ⟨_, step_of_rst hp⟩
    | access a =>
      obtain ⟨r, hr⟩ := BusCycle.admission_eq_ok hc
      rw [step_of_access (ready_of_legal hs) hp]
      exact performAccess_of_admission_ok _ hr
  obtain ⟨t, ht⟩ := hstep
  exact ⟨t, ht, ready_of_legal (stepKeepsTheStateLegal s t hs ht)⟩

/-! ## O41: before the first reset (R150) -/

/-- The branch of `perform` for an access before the first reset. -/
theorem perform_access_of_not_resetSeen {s : State} (a : HostAccess) (hseen : s.resetSeen = false) :
    perform (.access a) s = .refused .accessBeforeReset := by
  simp only [perform, hseen, if_true]

/-- Settles O41: taking the access off the pending events leaves `resetSeen` as it was. -/
theorem accessBeforeResetIsRefused : Obligations.AccessBeforeResetIsRefused := by
  intro s a rest hseen hp
  rw [step, hp]
  exact perform_access_of_not_resetSeen (s := { s with pending := rest }) a hseen

/-! ## O42 and O43: hardware reset and SRST (R147, R148) -/

/-- Settles O42: the step is `hardReset`, which writes the reset value to every register. -/
theorem hardwareResetGivesTheResetState : Obligations.HardwareResetGivesTheResetState :=
  fun _ _ _ hp => ⟨_, step_of_rst hp, rfl, rfl, rfl⟩

/-- Once a reset has happened, hardware reset does to the state what SRST does (R148). -/
theorem hardReset_of_resetSeen {s : State} (hseen : s.resetSeen = true) : hardReset s = resetRegisters s := by
  simp only [hardReset, resetRegisters, hseen]

/-- Settles O43: SRST performs `resetRegisters` (O34), and a ready state has seen a reset. -/
theorem srstEqualsHardwareReset : Obligations.SrstEqualsHardwareReset := by
  intro s lost rest hs
  have ⟨hseen, _⟩ := hs
  obtain ⟨-, hrun, -⟩ := stepRunsTheDecodedCommand
  calc step { s with pending := .access (.write 0x14 4 0x00000008#32) :: rest }
      = exec .srst { s with pending := rest } := hrun { s with pending := _ } .srst rest hs rfl rfl
    _ = .next (resetRegisters { s with pending := rest }) := exec_srst _
    _ = .next (hardReset { s with pending := rest }) :=
        congrArg Host.Outcome.next (hardReset_of_resetSeen (s := { s with pending := rest }) hseen).symm
    _ = step { s with pending := .rst lost :: rest } := (step_of_rst (s := { s with pending := _ }) rfl).symm

end Sys2Proof.Machine
